-- ==== Sys2Proof/Word.lean ====
section
/-! DEFINITION. The word types of the block and the one arithmetic word of the spec's glossary. -/

namespace Sys2Proof

/-- One byte: a palette index, an output byte, one symbol of a dictionary string (R8, R39). -/
abbrev Byte := BitVec 8

/-- One 16-bit command word, transferred as a single unit (R45). -/
abbrev CmdWord := BitVec 16

/-- `bitlen(x)` of the glossary of 00_scope.md: `floor(log2 x) + 1`, for `x > 0`. -/
def bitlen (x : Nat) : Nat := Nat.log2 x + 1

end Sys2Proof
end

