-- ==== Sys2Proof/Syntax.lean ====
section
/-! DEFINITION. The commands of the block: one constructor per row of spec/opcode_table.json (R47). -/

namespace Sys2Proof

/-- A command (30_encoding.md). An operand is the unsigned number of the `ARG` field (R46); which numbers can be
encoded is WellFormed's check, and which of those a session accepts is the command's own (R46, R49). -/
inductive Instr where
  /-- `NOP` (R79) -/
  | nop
  /-- `START m`: open a session with minimum code size `m` (R72) -/
  | start (m : Nat)
  /-- `PIXEL v`: feed one palette index (R73) -/
  | pixel (v : Nat)
  /-- `END`: end of input (R74) -/
  | endCmd
  /-- `RESET`: return the block to its reset state (R80) -/
  | reset
  deriving DecidableEq, Repr

end Sys2Proof
end

