-- ==== Sys2Proof/WellFormed.lean ====
section
/-! DEFINITION. Which command terms can be encoded: R51, "An operand outside 0 to 255 cannot be encoded". -/

namespace Sys2Proof

/-- A number fits the 8-bit `ARG` field (R46). -/
def argFits (n : Nat) : Bool := decide (n ≤ 255)

/-- The operand of the command, if it has one, is a number from 0 to 255 (R46, R51). `NOP`, `END` and `RESET`
have no operand. -/
def Instr.wellFormed : Instr → Bool
  | .nop => true
  | .start m => argFits m
  | .pixel v => argFits v
  | .endCmd => true
  | .reset => true

end Sys2Proof
end

