-- ==== Sys2Proof/Decode.lean ====
section
/-! DEFINITION. The decoder, total on every 16-bit word (R48), the encoder (R46, R47), and the opcode map as rows (R47). -/

namespace Sys2Proof

/-- Why a word is `ILLEGAL`: the two kinds of illegal word that R49 counts. -/
inductive Illegal where
  /-- `OP` is `0x05` to `0xFF` -/
  | opcode
  /-- `OP` is that of `NOP`, `END` or `RESET` and `ARG` is not `0x00` -/
  | argument
  deriving DecidableEq, Repr

/-- `OP = cmd[15:8]` (R45). -/
def opField (w : CmdWord) : Byte := w.extractLsb' 8 8

/-- `ARG = cmd[7:0]` (R45). -/
def argField (w : CmdWord) : Byte := w.extractLsb' 0 8

/-- A command without operand: `ARG` must be `0x00` (R46, R48). -/
def noOperand (w : CmdWord) (i : Instr) : Except Illegal Instr :=
  if argField w = 0x00#8 then .ok i else .error .argument

/-- `decode(cmd)` of R48. -/
def decode (w : CmdWord) : Except Illegal Instr :=
  if opField w = 0x00#8 then noOperand w .nop
  else if opField w = 0x01#8 then .ok (.start (argField w).toNat)
  else if opField w = 0x02#8 then .ok (.pixel (argField w).toNat)
  else if opField w = 0x03#8 then noOperand w .endCmd
  else if opField w = 0x04#8 then noOperand w .reset
  else .error .opcode

/-- The word of a command: `OP` in bits 15:8, `ARG` in bits 7:0 (R45, R47, R51). -/
def encode : Instr → CmdWord
  | .nop => 0x00#8 ++ 0x00#8
  | .start m => 0x01#8 ++ BitVec.ofNat 8 m
  | .pixel v => 0x02#8 ++ BitVec.ofNat 8 v
  | .endCmd => 0x03#8 ++ 0x00#8
  | .reset => 0x04#8 ++ 0x00#8

/-- A row of the opcode map (R47): a word selects it when `(cmd & mask) = pattern`. -/
structure OpRow where
  pattern : CmdWord
  mask : CmdWord
  deriving DecidableEq, Repr

/-- `(cmd & mask) = match` (R47). -/
def OpRow.selects (r : OpRow) (w : CmdWord) : Bool := w &&& r.mask == r.pattern

/-- The row of the opcode map that each command stands in (R47). -/
def Instr.row : Instr → OpRow
  | .nop => { pattern := 0x0000#16, mask := 0xFFFF#16 }
  | .start _ => { pattern := 0x0100#16, mask := 0xFF00#16 }
  | .pixel _ => { pattern := 0x0200#16, mask := 0xFF00#16 }
  | .endCmd => { pattern := 0x0300#16, mask := 0xFFFF#16 }
  | .reset => { pattern := 0x0400#16, mask := 0xFFFF#16 }

/-- The opcode map, in the table's order (R47). -/
def opcodeMap : List OpRow :=
  [Instr.nop.row, (Instr.start 0).row, (Instr.pixel 0).row, Instr.endCmd.row, Instr.reset.row]

/-- The command word of the low `nbits` bits of `w`, the bits above them zero. A command word is one 16-bit unit,
transferred whole, so no byte order applies to it (R37, R45). -/
def tableWord (nbits w : Nat) : CmdWord := BitVec.ofNat 16 (w % 2 ^ nbits)

/-- The command the decoder reads from a word numbered as spec/opcode_table.json numbers it; no command is longer
than 16 bits (R50). -/
def decodeTableWord (nbits w : Nat) : Option Instr :=
  if nbits ≤ 16 then (decode (tableWord nbits w)).toOption else none

end Sys2Proof
end

