-- ==== Sys2Proof/Config.lean ====
section
/-! DEFINITION. The parameters of an instance of the block (00_scope.md section 4, 92_eei_decisions.md "Parameters"). -/

namespace Sys2Proof

/-- `MAX_CODE_WIDTH`: the code width ceiling in bits (R6). -/
def maxCodeWidth : Nat := 12

/-- `CODE_SPACE`: the number of 12-bit codes, and the value of `NEXT` at which the code space is exhausted (R6, R20). -/
def codeSpace : Nat := 4096

/-- `MAX_SUBBLOCK`: the most data bytes of one sub-block (R6). -/
def maxSubblock : Nat := 255

/-- The parameters a model takes as a configuration, so that a claim may be stated for either value (R5).
They are fixed for an instance: no step writes them (log entry 1). -/
structure Config where
  /-- `EMIT_EOI`: whether `END` writes the end code (R5, D11). -/
  emitEoi : Bool
  deriving DecidableEq, Repr

/-- The value this spec takes for the block: `EMIT_EOI = false` (R5). -/
def Config.block : Config := { emitEoi := false }

/-- The three things through which the host reaches the block (R31). -/
inductive Port where
  /-- the command channel, 16-bit command words -/
  | command
  /-- the output channel, bytes -/
  | output
  /-- the `STATUS` read, 16 bits -/
  | status
  deriving DecidableEq, Repr

/-- `MMIO_MAP`: the addresses a platform gives the three ports. The spec leaves it `OPEN` (R32, D19), so it has
no body and nothing can be proved of its value; no rule reads it (log entry 2). -/
opaque Config.mmioMap : Port → Nat

end Sys2Proof
end

