-- ==== Sys2Proof/Machine/State.lean ====
section
/-! DEFINITION. The state of the block (10_state.md), the reasons a step can stop, and the state after reset (R30). -/

namespace Sys2Proof.Machine

/-- The session phase (R16). The value 3 is never held, so it has no constructor (R26). -/
inductive Phase where
  /-- 0: no session is open -/
  | idle
  /-- 1: a session is open -/
  | active
  /-- 2: an error has occurred -/
  | error
  deriving DecidableEq, Repr

/-- The first error since the last reset (R17, R82). The values 5 to 7 are never produced (R26). -/
inductive ErrCode where
  /-- 0: no error since reset -/
  | noError
  /-- 1 `ILLEGAL_CMD`: the command word decodes as `ILLEGAL` (R83) -/
  | illegalCmd
  /-- 2 `BAD_MCS`: `START` with `ARG` outside 2 to 8 (R84) -/
  | badMcs
  /-- 3 `PIXEL_RANGE`: `PIXEL` with `ARG >= 2^MCS` (R85) -/
  | pixelRange
  /-- 4 `SEQUENCE`: a command in the wrong phase (R86) -/
  | sequence
  deriving DecidableEq, Repr

/-- What the host can put before the block: a command word on the command channel (R31, R45), or the block's reset
input asserted (R95). -/
inductive Input where
  | word (w : CmdWord)
  | hardwareReset
  deriving DecidableEq, Repr

/-- The dictionary `D` (R21): a map from byte strings to codes, as the list of its entries in rising order of their
codes, one entry a string (`Dict.wf` in Safety.lean says that form). -/
abbrev Dict := List (List Byte × Nat)

/-- Why the machine stops. -/
inductive Fault where
  /-- Raised by `PIXEL` and `END` (through `emitPrefix`) where `D(P)` is read and `P` is no key of `D`. R9: `D(s)` is
  "defined only when `s in D`". R28 item 5 rules it out between commands, so no run meets it.
  Safe: the model stops where the spec gives no value. -/
  | prefixNotInDictionary
  deriving DecidableEq, Repr

/-- Why a command has no meaning. -/
inductive Refusal where
  /-- Raised by `exec` for a command that is not modelled yet; none is left. Safe: the model stops. -/
  | notModelled (mnemonic : String)
  deriving DecidableEq, Repr

/-- The registers of R12, the output channel (R34), what the host has put before the block and the block has not
taken yet (R14, R40), and the instance's parameters (R5). All register values are unsigned natural numbers and all
arithmetic on them is exact (R7, R63); that each fits the width R12 gives it is `State.Inv` (R27, R28). -/
@[ext]
structure State where
  /-- `PHASE`, 2 bits (R16) -/
  phase : Phase
  /-- `ERR`, 3 bits (R17) -/
  err : ErrCode
  /-- `MCS`, 4 bits: the minimum code size `m` of the current or last session (R18) -/
  mcs : Nat
  /-- `WIDTH`, 4 bits: the number of bits the next code is written with (R19) -/
  width : Nat
  /-- `NEXT`, 13 bits: the next assignable code (R20) -/
  next : Nat
  /-- `D`: the dictionary (R21) -/
  dict : Dict
  /-- `P`: the pending prefix (R22) -/
  p : List Byte
  /-- `ACC`, 19 bits: the bit packer's accumulator (R23) -/
  acc : Nat
  /-- `ACCLEN`, 5 bits: the number of valid bits in `ACC` (R23) -/
  acclen : Nat
  /-- `SBBUF`, 255 bytes, position 0 first: the raw bytes of the sub-block being filled (R24) -/
  sbbuf : List Byte
  /-- `SBCNT`, 8 bits: the number of valid bytes in `SBBUF` (R24) -/
  sbcnt : Nat
  /-- the output channel: every byte appended so far, in order (R34) -/
  out : List Byte
  /-- what the host has put before the block and the block has not taken, oldest first (R14, R40) -/
  inputs : List Input
  /-- the instance's parameters; no step writes them (R5) -/
  cfg : Config
  deriving DecidableEq, Repr

/-! `REG <- v` writes one register (R9). -/

def State.setPhase (v : Phase) (s : State) : State := { s with phase := v }

def State.setErr (v : ErrCode) (s : State) : State := { s with err := v }

def State.setMcs (v : Nat) (s : State) : State := { s with mcs := v }

def State.setWidth (v : Nat) (s : State) : State := { s with width := v }

def State.setNext (v : Nat) (s : State) : State := { s with next := v }

def State.setDict (v : Dict) (s : State) : State := { s with dict := v }

def State.setP (v : List Byte) (s : State) : State := { s with p := v }

def State.setAcc (v : Nat) (s : State) : State := { s with acc := v }

def State.setAcclen (v : Nat) (s : State) : State := { s with acclen := v }

def State.setSbbuf (v : List Byte) (s : State) : State := { s with sbbuf := v }

def State.setSbcnt (v : Nat) (s : State) : State := { s with sbcnt := v }

def State.setOut (v : List Byte) (s : State) : State := { s with out := v }

def State.setInputs (v : List Input) (s : State) : State := { s with inputs := v }

/-- The state after reset (R30). `SBBUF` is unspecified there; its zeros are the model's (log entry 3). The channels
are empty: nothing has been sent and nothing appended (log entry 4). -/
def State.reset : State where
  phase := .idle
  err := .noError
  mcs := 0
  width := 0
  next := 0
  dict := []
  p := []
  acc := 0
  acclen := 0
  sbbuf := List.replicate maxSubblock 0x00#8
  sbcnt := 0
  out := []
  inputs := []
  cfg := Config.block

end Sys2Proof.Machine
end

