-- ==== Sys2Proof/Machine/Ops.lean ====
section
/-! DEFINITION. The named operations over the state: the channels, the dictionary as a map, the error entry (R88), the
reset (R95), and taking the next input. -/

namespace Sys2Proof.Machine

/-- Continue with `f` where a command goes on. -/
def thenDo (o : Host.Outcome State Fault Refusal) (f : State → State) : Host.Outcome State Fault Refusal :=
  match o with
  | .next s => .next (f s)
  | .fault r => .fault r
  | .refused r => .refused r

/-! The output channel. -/

/-- `OutByte(b)`: append one byte at the end of the output channel (R34). -/
def outByte (b : Byte) (s : State) : State := s.setOut (s.out ++ [b])

/-- `for i in …: OutByte(bs[i])`: append bytes in order. -/
def outBytes (bs : List Byte) (s : State) : State := s.setOut (s.out ++ bs)

/-! The dictionary as a map (R9, R21): its organisation is free, only the map is specified. -/

/-- `D(s)`: the code of the string, if it is a key. Equality of strings is element-wise over the full length (R63). -/
def Dict.find (d : Dict) (str : List Byte) : Option Nat := List.lookup str d

/-- `s in D`. -/
def Dict.has (d : Dict) (str : List Byte) : Bool := (d.find str).isSome

/-- `D(s) <- c`, for a string that is no key (the precondition of R59): the new entry stands last, since its code is
above every code in use. -/
def Dict.insert (d : Dict) (str : List Byte) (c : Nat) : Dict := d ++ [(str, c)]

/-- The `N` single-symbol strings `[k] -> k` (R54). -/
def Dict.singles (n : Nat) : Dict := (List.range n).map fun k => ([BitVec.ofNat 8 k], k)

/-! Errors and reset. -/

/-- `raise Error(code)` (R88): `ERR` and `PHASE` are written and nothing else; nothing is appended. -/
def raiseError (e : ErrCode) (s : State) : State := (s.setErr e).setPhase .error

/-- `ResetState()` (R95): the way out of `ERROR` (R90). `SBBUF` is not written and nothing is appended; bytes already
appended stay with the host. -/
def resetState (s : State) : State :=
  s.setPhase .idle |>.setErr .noError |>.setMcs 0 |>.setWidth 0 |>.setNext 0 |>.setDict [] |>.setP []
    |>.setAcc 0 |>.setAcclen 0 |>.setSbcnt 0

/-! Inputs. -/

/-- Take the oldest input the host has put before the block (R40: in the order the host sends them). -/
def fetch (s : State) : Option (Input × State) :=
  match s.inputs with
  | [] => none
  | i :: rest => some (i, s.setInputs rest)

/-- The host presents an input as the block's very next one. -/
def present (i : Input) (s : State) : State := s.setInputs (i :: s.inputs)

end Sys2Proof.Machine
end

