-- ==== Sys2Proof/Machine/Operands.lean ====
section
/-! DEFINITION. The operand forms: the ranges a session checks `ARG` against (R46), and the values a session's `m`
gives (R53). -/

namespace Sys2Proof.Machine

/-- `2 <= m <= 8`: the minimum code sizes `START` accepts (R6, R72). -/
def mcsLegal (m : Nat) : Bool := decide (2 ≤ m ∧ m ≤ 8)

/-- `N = 2^m`, for the session's `m = MCS` (R18, R53). -/
def alphabetSize (s : State) : Nat := 2 ^ s.mcs

/-- `CLEAR = N` (R53). -/
def clearCode (s : State) : Nat := alphabetSize s

/-- `EOI = N + 1` (R53). -/
def eoiCode (s : State) : Nat := alphabetSize s + 1

/-- `v < N`: the pixel values the session accepts (R53, R73). -/
def pixelLegal (v : Nat) (s : State) : Bool := decide (v < alphabetSize s)

/-- The byte of an operand, as an output byte or a symbol of a string (R46, R69). -/
def operandByte (n : Nat) : Byte := BitVec.ofNat 8 n

end Sys2Proof.Machine
end

