-- ==== Sys2Proof/Machine/Packer.lean ====
section
/-! DEFINITION. The bit packer and the sub-block framer (41_bitpacker_framer.md). -/

namespace Sys2Proof.Machine

/-- The raw bytes of the sub-block being filled, oldest first: `SBBUF[0]` to `SBBUF[SBCNT-1]` (R24). -/
def pending (s : State) : List Byte := s.sbbuf.take s.sbcnt

/-- Append the sub-block: its length byte, its data bytes in order; the buffer is then empty (R66, R68). -/
def emitSubBlock (s : State) : State :=
  (outBytes (pending s) (outByte (BitVec.ofNat 8 s.sbcnt) s)).setSbcnt 0

/-- `SBBUF[SBCNT] <- b; SBCNT <- SBCNT + 1` (R66). -/
def bufferByte (b : Byte) (s : State) : State :=
  (s.setSbbuf (s.sbbuf.set s.sbcnt b)).setSbcnt (s.sbcnt + 1)

/-- `RawByte(b)` (R66): a sub-block is emitted as soon as its 255th byte arrives. -/
def rawByte (b : Byte) (s : State) : State :=
  let t := bufferByte b s
  if t.sbcnt = maxSubblock then emitSubBlock t else t

/-- `ACC[7:0]`. -/
def accByte (s : State) : Byte := BitVec.ofNat 8 s.acc

/-- The body of the loop of `PutCode`: the low byte leaves the accumulator (R65). -/
def shiftOut (s : State) : State :=
  let t := rawByte (accByte s) s
  (t.setAcc (t.acc >>> 8)).setAcclen (t.acclen - 8)

/-- `while ACCLEN >= 8` of `PutCode` (R65). A round lowers `ACCLEN` by 8, so `ACCLEN` rounds of fuel never run out
(`packLoop_done`). -/
def packLoop : Nat → State → State
  | 0, s => s
  | fuel + 1, s => if 8 ≤ s.acclen then packLoop fuel (shiftOut s) else s

/-- `ACC <- ACC | (c << ACCLEN); ACCLEN <- ACCLEN + w` (R65, R36). -/
def holdCode (c w : Nat) (s : State) : State :=
  (s.setAcc (s.acc ||| c <<< s.acclen)).setAcclen (s.acclen + w)

/-- `PutCode(c, w)` (R65). -/
def putCode (c w : Nat) (s : State) : State :=
  let t := holdCode c w s
  packLoop t.acclen t

/-- `FlushBits()` (R67): the last partial byte, padded with zero bits; no byte where no bit is held. -/
def flushBits (s : State) : State :=
  let t := if 0 < s.acclen then rawByte (accByte s) s else s
  (t.setAcc 0).setAcclen 0

/-- `FlushFrame()` (R68): the last sub-block, if any raw byte is pending, then the terminator `0x00`. -/
def flushFrame (s : State) : State :=
  outByte 0x00#8 (if 0 < s.sbcnt then emitSubBlock s else s)

end Sys2Proof.Machine
end

