-- ==== Sys2Proof/Machine/Lzw.lean ====
section
/-! DEFINITION. The LZW datapath (40_lzw_datapath.md): the micro-operations `START`, `PIXEL` and `END` are built from. -/

namespace Sys2Proof.Machine

/-- `DictInit(m)` (R54): a new dictionary epoch. -/
def dictInit (m : Nat) (s : State) : State :=
  s.setDict (Dict.singles (2 ^ m)) |>.setNext (2 ^ m + 2) |>.setWidth (m + 1)

/-- `WidthCheck()` (R57): the late reading of 90_conflicts.md C1. -/
def widthCheck (s : State) : State :=
  if s.next > 2 ^ s.width - 1 ∧ s.width < maxCodeWidth then s.setWidth (s.width + 1) else s

/-- `EmitData(c)` (R56): the data code at the current width, then the width check. -/
def emitData (c : Nat) (s : State) : State := widthCheck (putCode c s.width s)

/-- `EmitData(D(P))` (R55, R62). `D(P)` is defined only when `P in D` (R9): elsewhere the machine stops. -/
def emitPrefix (s : State) : Host.Outcome State Fault Refusal :=
  match s.dict.find s.p with
  | some c => .next (emitData c s)
  | none => .fault .prefixNotInDictionary

/-- `InsertEntry(s)` (R59). -/
def insertEntry (str : List Byte) (s : State) : State :=
  (s.setDict (s.dict.insert str s.next)).setNext (s.next + 1)

/-- `TableReset()` (R60): `CLEAR` at the current width, then a new epoch. -/
def tableReset (s : State) : State := dictInit s.mcs (putCode (clearCode s) s.width s)

/-- The novel string gets the next code, or, when the code space is exhausted, the table is reset (R55, R59, R60). -/
def growOrReset (str : List Byte) (s : State) : State :=
  if s.next < codeSpace then insertEntry str s else tableReset s

/-- `LzwPixel(v)` (R55, R61), for `v < N`. -/
def lzwPixel (v : Nat) (s : State) : Host.Outcome State Fault Refusal :=
  let str := s.p ++ [operandByte v]
  if s.p = [] then .next (s.setP [operandByte v])
  else if s.dict.has str then .next (s.setP str)
  else thenDo (emitPrefix s) fun t => (growOrReset str t).setP [operandByte v]

/-- `if EMIT_EOI: PutCode(EOI, WIDTH)` (R62, R5). -/
def writeEoi (s : State) : State := if s.cfg.emitEoi then putCode (eoiCode s) s.width s else s

/-- `LzwFinish()` (R62): the final data code, if a prefix is pending, then the end code, if enabled. -/
def lzwFinish (s : State) : Host.Outcome State Fault Refusal :=
  thenDo (if s.p = [] then .next s else emitPrefix s) fun t => (writeEoi t).setP []

end Sys2Proof.Machine
end

