-- ==== Sys2Proof/Machine/Stream.lean ====
section
/-! DEFINITION. The stream commands `START`, `PIXEL` and `END` (42_stream_commands.md). Their checks run in the order
of R87 and precede every write (R88). -/

namespace Sys2Proof.Machine

/-- The effect of a `START m` that passes its checks (R72). -/
def openSession (m : Nat) (s : State) : State :=
  let t := dictInit m (s.setMcs m) |>.setP [] |>.setAcc 0 |>.setAcclen 0 |>.setSbcnt 0
  let u := outByte (operandByte m) t
  (putCode (clearCode u) u.width u).setPhase .active

/-- `START m` (R72). -/
def execStart (m : Nat) (s : State) : Host.Outcome State Fault Refusal :=
  match s.phase with
  | .error => .next s
  | .active => .next (raiseError .sequence s)
  | .idle => if mcsLegal m then .next (openSession m s) else .next (raiseError .badMcs s)

/-- `PIXEL v` (R73). -/
def execPixel (v : Nat) (s : State) : Host.Outcome State Fault Refusal :=
  match s.phase with
  | .error => .next s
  | .idle => .next (raiseError .sequence s)
  | .active => if pixelLegal v s then lzwPixel v s else .next (raiseError .pixelRange s)

/-- `FlushBits(); FlushFrame(); PHASE <- IDLE` (R74). -/
def closeSession (s : State) : State := (flushFrame (flushBits s)).setPhase .idle

/-- `END` (R74). -/
def execEnd (s : State) : Host.Outcome State Fault Refusal :=
  match s.phase with
  | .error => .next s
  | .idle => .next (raiseError .sequence s)
  | .active => thenDo (lzwFinish s) closeSession

end Sys2Proof.Machine
end

