-- ==== Sys2Proof/Machine/Flags.lean ====
section
/-! DEFINITION. The status indications: the codes of `PHASE` and `ERR`, and `STATUS`, the read-only view assembled
from the registers (R15, R25, R81). -/

namespace Sys2Proof.Machine

/-- The value of the 2-bit field `PHASE` (R16, R25). -/
def Phase.code : Phase → Nat
  | .idle => 0
  | .active => 1
  | .error => 2

/-- The value of the 3-bit field `ERR` (R25, R82). -/
def ErrCode.code : ErrCode → Nat
  | .noError => 0
  | .illegalCmd => 1
  | .badMcs => 2
  | .pixelRange => 3
  | .sequence => 4

/-- `(WIDTH << 12) | (MCS << 8) | (0 << 5) | (ERR << 2) | PHASE` (R81). -/
def status (s : State) : BitVec 16 :=
  BitVec.ofNat 16 (s.width <<< 12 ||| s.mcs <<< 8 ||| 0 <<< 5 ||| s.err.code <<< 2 ||| s.phase.code)

end Sys2Proof.Machine
end

