-- ==== Sys2Proof/Machine/System.lean ====
section
/-! DEFINITION. The system commands `NOP` and `RESET`, the `STATUS` read (43_system_commands.md), the hardware reset
(R95), and what executing an illegal word does (R48, R83). -/

namespace Sys2Proof.Machine

/-- `NOP` (R79): no effect in any phase. -/
def execNop (s : State) : Host.Outcome State Fault Refusal := .next s

/-- `RESET` (R80): the reset state, from any phase. -/
def execReset (s : State) : Host.Outcome State Fault Refusal := .next (resetState s)

/-- The block's reset input asserted (R95): the same effect as `RESET`. -/
def hardwareReset (s : State) : Host.Outcome State Fault Refusal := .next (resetState s)

/-- A word that decodes as `ILLEGAL` raises `ILLEGAL_CMD` (R83), and is ignored in `ERROR` (R89). -/
def execIllegal (s : State) : Host.Outcome State Fault Refusal :=
  match s.phase with
  | .error => .next s
  | .idle => .next (raiseError .illegalCmd s)
  | .active => .next (raiseError .illegalCmd s)

/-- `RDSTATUS` (R81): the value read, and the state after the read. A port read, not a command word; a read has no
side effect. -/
def readStatus (s : State) : BitVec 16 × State := (status s, s)

end Sys2Proof.Machine
end

