-- ==== Sys2Proof/Machine/Dispatch.lean ====
section
/-! DEFINITION. What each command does: one arm per constructor of Instr. -/

namespace Sys2Proof.Machine

def exec (i : Instr) (s : State) : Host.Outcome State Fault Refusal :=
  match i with
  | .nop => Sys2Proof.Machine.execNop s
  | .start m => Sys2Proof.Machine.execStart m s
  | .pixel v => Sys2Proof.Machine.execPixel v s
  | .endCmd => Sys2Proof.Machine.execEnd s
  | .reset => Sys2Proof.Machine.execReset s

end Sys2Proof.Machine
end

