-- ==== Sys2Proof/Machine/Run.lean ====
section
/-! DEFINITION. Running one input of the block: a command word is decoded and executed (R48), the reset input resets. -/

namespace Sys2Proof.Machine

/-- A command word taken from the command channel: its command, or the illegal-word error (R48). -/
def runWord (w : CmdWord) (s : State) : Host.Outcome State Fault Refusal :=
  match decode w with
  | .ok i => exec i s
  | .error _ => execIllegal s

/-- The effect of one input. -/
def runInput (i : Input) (s : State) : Host.Outcome State Fault Refusal :=
  match i with
  | .word w => runWord w s
  | .hardwareReset => hardwareReset s

/-- The block with nothing before it: it waits, and waiting changes nothing (R88, R97, log entry 5). -/
def await (s : State) : Host.Outcome State Fault Refusal := .next s

end Sys2Proof.Machine
end

