-- ==== Sys2Proof/Machine/Step.lean ====
section
/-! DEFINITION. One step of the block: the oldest input the host has put before it (R11, R40). -/

namespace Sys2Proof.Machine

/-- One step: the next input, executed whole (R10, R40). -/
def step (s : State) : Host.Outcome State Fault Refusal :=
  match fetch s with
  | none => await s
  | some (i, t) => runInput i t

/-- The state with a command word put before the block as its very next input. The block fetches from no memory: a
command comes from the host on the command channel (R14, R43; log entry 4). -/
def State.withFetchWord (s : State) (nbits w : Nat) : State := present (.word (tableWord nbits w)) s

end Sys2Proof.Machine
end

