-- ==== Sys2Proof/Machine/Platform.lean ====
section
/-! DEFINITION. The two agents of R11: the block, and the host that sends commands, asserts the reset input, reads
`STATUS` and takes output bytes. -/

namespace Sys2Proof.Machine

/-- What the host can do to the block (R11, R31, R95). -/
inductive HostAction where
  /-- put one command word on the command channel; the host's next action comes after it has completed (R103) -/
  | send (w : CmdWord)
  /-- assert the block's reset input -/
  | assertReset
  /-- `RDSTATUS`: a port read, not a command word (R51, R81) -/
  | rdStatus
  /-- take one byte from the output channel (R34, R39) -/
  | takeByte
  deriving DecidableEq, Repr

/-- The block, and what the host has observed of it (R11). -/
structure Platform where
  block : State
  /-- the bytes the host has taken, in order -/
  taken : List Byte
  /-- the values its `STATUS` reads returned, in order -/
  reads : List (BitVec 16)
  deriving DecidableEq, Repr

/-- The bytes appended and not taken yet: the host's view of the output channel (R39). -/
def Platform.channel (pl : Platform) : List Byte := pl.block.out.drop pl.taken.length

/-- The block takes one step with the input before it. -/
def Platform.drive (i : Input) (pl : Platform) : Host.Outcome Platform Fault Refusal :=
  match step (present i pl.block) with
  | .next t => .next { pl with block := t }
  | .fault r => .fault r
  | .refused r => .refused r

/-- One action of the host, and the block's response where there is one (R11, R40). A read and a take do not act on
the block (R39). What a take does while the output channel is empty is not said; the model's choice (DESIGN CHOICE, log
entry 10) is that it completes and changes nothing. -/
def Platform.act (a : HostAction) (pl : Platform) : Host.Outcome Platform Fault Refusal :=
  match a with
  | .send w => pl.drive (.word w)
  | .assertReset => pl.drive .hardwareReset
  | .rdStatus =>
    let (v, t) := readStatus pl.block
    .next { pl with block := t, reads := pl.reads ++ [v] }
  | .takeByte => .next { pl with taken := pl.taken ++ pl.channel.take 1 }

/-- The host's actions, in its order (R40). -/
def Platform.run : List HostAction → Platform → Host.Outcome Platform Fault Refusal
  | [], pl => .next pl
  | a :: rest, pl =>
    match pl.act a with
    | .next q => Platform.run rest q
    | .fault r => .fault r
    | .refused r => .refused r

/-- The platform right after reset: nothing sent, taken or read. -/
def Platform.reset : Platform where
  block := State.reset
  taken := []
  reads := []

end Sys2Proof.Machine
end

