-- ==== Sys2Proof/Machine/Assembler.lean ====
section
/-! DEFINITION. The text form of command streams (R51) and the pseudo-commands (R52), over lists of characters. -/

namespace Sys2Proof.Machine

/-- The mnemonics of the text form. -/
inductive Mnemonic where
  | nop | start | pixel | endCmd | reset
  /-- `.word`: a raw command word (R51) -/
  | word
  /-- `RDSTATUS`: a host read of `STATUS`, not a command word (R51) -/
  | rdStatus
  /-- the pseudo-commands of R52 -/
  | pixels | run | compress
  deriving DecidableEq, Repr

/-- Why a line cannot be assembled. -/
inductive AsmError where
  | unknownMnemonic
  /-- too few or too many operands, or an operand that is no number -/
  | badOperands
  /-- "An operand outside 0 to 255 cannot be encoded" (R51) -/
  | operandRange
  deriving DecidableEq, Repr

/-- The mnemonics' spellings, in lower case: mnemonics are case-insensitive (R51). -/
def mnemonics : List (List Char × Mnemonic) :=
  [(['n', 'o', 'p'], .nop), (['s', 't', 'a', 'r', 't'], .start), (['p', 'i', 'x', 'e', 'l'], .pixel),
   (['e', 'n', 'd'], .endCmd), (['r', 'e', 's', 'e', 't'], .reset), (['.', 'w', 'o', 'r', 'd'], .word),
   (['r', 'd', 's', 't', 'a', 't', 'u', 's'], .rdStatus), (['p', 'i', 'x', 'e', 'l', 's'], .pixels),
   (['r', 'u', 'n'], .run), (['c', 'o', 'm', 'p', 'r', 'e', 's', 's'], .compress)]

def isBlank (c : Char) : Bool := c == ' ' || c == '\t' || c == '\r'

/-- The characters between the blanks at both ends. -/
def trim (cs : List Char) : List Char := ((cs.dropWhile isBlank).reverse.dropWhile isBlank).reverse

/-- The pieces between the separators. -/
def splitAt (sep : Char) : List Char → List (List Char)
  | [] => [[]]
  | c :: cs =>
    match splitAt sep cs with
    | [] => [[c]]
    | piece :: more => if c = sep then [] :: piece :: more else (c :: piece) :: more

/-- The value of a hexadecimal digit. -/
def digit (c : Char) : Option Nat :=
  let n := c.toNat
  if 48 ≤ n ∧ n ≤ 57 then some (n - 48)
  else if 65 ≤ n ∧ n ≤ 70 then some (n - 55)
  else if 97 ≤ n ∧ n ≤ 102 then some (n - 87)
  else none

/-- The number its digits write in a base, from the value of the digits before them. -/
def digits (base : Nat) : Nat → List Char → Option Nat
  | n, [] => some n
  | n, c :: cs =>
    match digit c with
    | none => none
    | some d => if d < base then digits base (n * base + d) cs else none

/-- A decimal number, or a hexadecimal number after `0x` (R51). -/
def number : List Char → Option Nat
  | [] => none
  | ['0', 'x'] => none
  | '0' :: 'x' :: ds => digits 16 0 ds
  | ds => digits 10 0 ds

/-- The operands of a line: numbers with commas between them. -/
def operands (cs : List Char) : Except AsmError (List Nat) :=
  if trim cs = [] then .ok []
  else match (splitAt ',' cs).mapM fun piece => number (trim piece) with
    | some ns => .ok ns
    | none => .error .badOperands

/-- A command as the host's action: its word, sent; an operand that cannot be encoded is an assembly error (R51). -/
def sendInstr (i : Instr) : Except AsmError HostAction :=
  if i.wellFormed then .ok (.send (encode i)) else .error .operandRange

/-- The operand of `.word 0xHHHH`: a raw 16-bit word, written with four hexadecimal digits (R51). -/
def rawWord (cs : List Char) : Except AsmError HostAction :=
  match trim cs with
  | ['0', 'x', a, b, c, d] =>
    match digits 16 0 [a, b, c, d] with
    | some n => .ok (.send (BitVec.ofNat 16 n))
    | none => .error .badOperands
  | _ => .error .badOperands

/-- The commands a mnemonic with its operands stands for (R51, R52). -/
def expand (m : Mnemonic) (ns : List Nat) : Except AsmError (List Instr) :=
  match m, ns with
  | .nop, [] => .ok [.nop]
  | .start, [n] => .ok [.start n]
  | .pixel, [n] => .ok [.pixel n]
  | .endCmd, [] => .ok [.endCmd]
  | .reset, [] => .ok [.reset]
  | .pixels, v :: vs => .ok ((v :: vs).map .pixel)
  | .run, [v, n] => if argFits v then .ok (List.replicate n (.pixel v)) else .error .operandRange
  | .compress, n :: vs => .ok (.start n :: vs.map .pixel ++ [.endCmd])
  | _, _ => .error .badOperands

/-- One line: `MNEMONIC` or `MNEMONIC operand`; `;` starts a comment (R51). R51 does not say what a blank line is, or one
that holds only a comment; the model's choice (DESIGN CHOICE, log entry 12) is that it assembles to no action. -/
def assembleLine (line : List Char) : Except AsmError (List HostAction) :=
  let text := trim (line.takeWhile (· != ';'))
  if text = [] then .ok []
  else
    let name := (text.takeWhile fun c => !isBlank c).map Char.toLower
    let rest := text.dropWhile fun c => !isBlank c
    match mnemonics.lookup name with
    | none => .error .unknownMnemonic
    | some .rdStatus => if trim rest = [] then .ok [.rdStatus] else .error .badOperands
    | some .word => do return [← rawWord rest]
    | some m => do (← expand m (← operands rest)).mapM sendInstr

/-- A program: one command a line (R51). -/
def assemble (text : List Char) : Except AsmError (List HostAction) := do
  return (← (splitAt '\n' text).mapM assembleLine).flatten

end Sys2Proof.Machine
end

