-- ==== Sys2Proof/Machine/Session.lean ====
section
/-! DEFINITION. Runs of several commands: a whole session, and the reference function `compress` of R75. -/

namespace Sys2Proof.Machine

/-- Commands executed one at a time, in order, each completing before the next starts (R40). -/
def runInstrs : List Instr → State → Host.Outcome State Fault Refusal
  | [], s => .next s
  | i :: rest, s =>
    match exec i s with
    | .next t => runInstrs rest t
    | .fault r => .fault r
    | .refused r => .refused r

/-- The commands of one session: `START m`, one `PIXEL` per element, `END` (R52 `COMPRESS`, R75). -/
def sessionInstrs (m : Nat) (pixels : List Byte) : List Instr :=
  .start m :: (pixels.map fun v => .pixel v.toNat) ++ [.endCmd]

/-- `compress(pixels, m)` (R75): the bytes the block appends when it runs the session from `PHASE = IDLE`; none where
the run ends in `ERROR`, where R75 leaves it undefined. -/
def compress (c : Config) (m : Nat) (pixels : List Byte) : Option (List Byte) :=
  match runInstrs (sessionInstrs m pixels) { State.reset with cfg := c } with
  | .next t => if t.phase = .idle then some t.out else none
  | .fault _ => none
  | .refused _ => none

end Sys2Proof.Machine
end

