-- ==== Sys2Proof/Safety.lean ====
section
/-! DEFINITION. The terms claims are stated in: the invariant between commands (R28), the register widths (R27), the
order in which errors are decided (R87), and the closed form of a session's output (R58, R70). None of it is used by the
machine. -/

namespace Sys2Proof.Machine

/-- The canonical form of a dictionary: codes strictly rising, so that each code is used once, and no string twice. So
equal maps are equal lists. -/
abbrev Dict.wf (d : Dict) : Prop := (d.map (·.2)).Pairwise (· < ·) ∧ (d.map (·.1)).Nodup

/-- Every non-empty prefix of a key is a key (R28 item 3). -/
def Dict.prefixClosed (d : Dict) : Prop :=
  ∀ str, d.has str = true → ∀ q, q ≠ [] → q <+: str → d.has q = true

/-- A dictionary epoch is open or has been: items 1 to 3 of R28. -/
structure State.Epoch (s : State) : Prop where
  mcsRange : 2 ≤ s.mcs ∧ s.mcs ≤ 8
  nextRange : alphabetSize s + 2 ≤ s.next ∧ s.next ≤ codeSpace
  /-- the codes are those of the single symbols, then `N + 2` to `NEXT - 1`, each used once (R21) -/
  codes : s.dict.map (·.2) =
    List.range (alphabetSize s) ++ List.range' (alphabetSize s + 2) (s.next - (alphabetSize s + 2))
  /-- the entries of the single symbols are `[k] -> k` (R21) -/
  singles : s.dict.take (alphabetSize s) = Dict.singles (alphabetSize s)
  keysDistinct : (s.dict.map (·.1)).Nodup
  prefixClosed : s.dict.prefixClosed
  /-- `WIDTH` is 3 to 12 (R12) -/
  widthRange : 3 ≤ s.width ∧ s.width ≤ maxCodeWidth

/-- No session has been opened since reset (R30). -/
structure State.Blank (s : State) : Prop where
  mcs : s.mcs = 0
  width : s.width = 0
  next : s.next = 0
  dict : s.dict = []

/-- What holds between commands in every phase (R12, R28). -/
structure State.Inv (s : State) : Prop where
  history : s.Blank ∨ s.Epoch
  /-- items 1 to 4 of R28, while a session is open -/
  session : s.phase = .active → s.Epoch ∧ s.width = min maxCodeWidth (bitlen (s.next - 1))
  /-- item 5 of R28: `P` is empty or a key -/
  prefixKey : s.p = [] ∨ s.dict.has s.p = true
  /-- item 6 of R28 -/
  packer : s.acclen ≤ 7 ∧ s.acc < 2 ^ s.acclen
  /-- item 7 of R28, and the 255 places of `SBBUF` (R24) -/
  framer : s.sbcnt ≤ 254 ∧ s.sbbuf.length = maxSubblock
  /-- an error has occurred exactly in `ERROR` (R16, R17, R90) -/
  errors : s.phase = .error ↔ s.err ≠ .noError

/-- Every register fits the width R12 gives it (R27), and every code is a 12-bit code. -/
structure State.Fits (s : State) : Prop where
  mcs : s.mcs < 2 ^ 4
  width : s.width < 2 ^ 4
  next : s.next < 2 ^ 13
  acc : s.acc < 2 ^ 19
  acclen : s.acclen < 2 ^ 5
  sbbuf : s.sbbuf.length = 255
  sbcnt : s.sbcnt < 2 ^ 8
  dict : ∀ e ∈ s.dict, e.2 < 2 ^ 12

/-- `OP >= 0x05`, or the `OP` of `NOP`, `END` or `RESET` with a nonzero `ARG`: the illegal words of R83, by number. -/
def illegalNumber (w : CmdWord) : Prop :=
  5 ≤ w.toNat / 256 ∨ ((w.toNat / 256 = 0 ∨ w.toNat / 256 = 3 ∨ w.toNat / 256 = 4) ∧ w.toNat % 256 ≠ 0)

/-- The error that executing a word in a phase other than `ERROR` raises, if any: the order of R87, items 2 to 5. -/
def firstError (w : CmdWord) (s : State) : Option ErrCode :=
  let op := w.toNat / 256
  let arg := w.toNat % 256
  if 5 ≤ op ∨ ((op = 0 ∨ op = 3 ∨ op = 4) ∧ arg ≠ 0) then some .illegalCmd
  else if op = 0 ∨ op = 4 then none
  else if (op = 1 ∧ s.phase = .active) ∨ ((op = 2 ∨ op = 3) ∧ s.phase = .idle) then some .sequence
  else if op = 1 ∧ (arg < 2 ∨ 8 < arg) then some .badMcs
  else if op = 2 ∧ 2 ^ s.mcs ≤ arg then some .pixelRange
  else none

/-! The framer's effect on bytes, without its registers (R66). -/

/-- What leaves on the output channel when raw bytes join the ones pending: a full sub-block, if they complete it. At
most one can be completed by fewer than 256 raw bytes. -/
def completed (held raw : List Byte) : List Byte :=
  if 255 ≤ (held ++ raw).length then 0xFF#8 :: (held ++ raw).take 255 else []

/-- What is pending after raw bytes have joined the ones pending. -/
def remaining (held raw : List Byte) : List Byte :=
  if 255 ≤ (held ++ raw).length then (held ++ raw).drop 255 else held ++ raw

/-! The closed form of a session's output (R58, R70), over the list of the codes it writes, each with its width. -/

/-- The `w_1 + ... + w_n` code bits (R70). -/
def bitTotal : List (Nat × Nat) → Nat
  | [] => 0
  | (_, w) :: rest => w + bitTotal rest

/-- `sum_i c_i * 2^(w_1 + ... + w_(i-1))` (R70). -/
def streamValue : List (Nat × Nat) → Nat
  | [] => 0
  | (c, w) :: rest => c + 2 ^ w * streamValue rest

/-- The raw bytes: byte `j` is bits `8j` to `8j + 7` of the stream's value, for `R = ceil(B / 8)` bytes (R36, R70). -/
def rawBytes (codes : List (Nat × Nat)) : List Byte :=
  (List.range ((bitTotal codes + 7) / 8)).map fun j => BitVec.ofNat 8 (streamValue codes / 2 ^ (8 * j))

/-- `SB_1 ++ ... ++ SB_q` with `q = ceil(R / 255)` (R70). -/
def subBlocks (raw : List Byte) : List Byte :=
  (List.range ((raw.length + 254) / 255)).flatMap fun j =>
    let chunk := (raw.drop (255 * j)).take 255
    BitVec.ofNat 8 chunk.length :: chunk

/-- `[m] ++ SB_1 ++ ... ++ SB_q ++ [0x00]` (R70). -/
def framed (m : Nat) (codes : List (Nat × Nat)) : List Byte :=
  BitVec.ofNat 8 m :: subBlocks (rawBytes codes) ++ [0x00#8]

/-- The width of the `k`-th data code of an epoch (R58). -/
def dataWidth (n k : Nat) : Nat := min maxCodeWidth (bitlen (n + k))

/-- The codes a session writes after its opening `CLEAR`: longest match (R55), with the code numbers and the widths of
R58 counted by the data codes `k` of the epoch so far, without `NEXT` or `WIDTH`. The `k`-th data code inserts code
`N + 1 + k`, except the `4095 - N`-th, after which `CLEAR` follows at 12 bits (R58, R60). -/
def laterCodes (eoi : Bool) (m : Nat) : List Byte → Nat → Dict → List Byte → List (Nat × Nat)
  | [], k, d, str =>
    let last := if str = [] then [] else [((d.find str).getD 0, dataWidth (2 ^ m) (k + 1))]
    last ++ if eoi then [(2 ^ m + 1, dataWidth (2 ^ m) (k + last.length + 1))] else []
  | v :: rest, k, d, str =>
    if str = [] then laterCodes eoi m rest k d [v]
    else if d.has (str ++ [v]) then laterCodes eoi m rest k d (str ++ [v])
    else
      ((d.find str).getD 0, dataWidth (2 ^ m) (k + 1)) ::
        if k + 1 < 4095 - 2 ^ m then
          laterCodes eoi m rest (k + 1) (d.insert (str ++ [v]) (2 ^ m + 1 + (k + 1))) [v]
        else (2 ^ m, maxCodeWidth) :: laterCodes eoi m rest 0 (Dict.singles (2 ^ m)) [v]

/-- The codes a session writes: the opening `CLEAR` at `m + 1` bits (R72), then those of its pixels. -/
def sessionCodes (eoi : Bool) (m : Nat) (pixels : List Byte) : List (Nat × Nat) :=
  (2 ^ m, m + 1) :: laterCodes eoi m pixels 0 (Dict.singles (2 ^ m)) []

/-- The next state of an outcome, if it is one; for tests. -/
def nextOf (o : Host.Outcome State Fault Refusal) : Option State :=
  match o with
  | .next s => some s
  | .fault _ => none
  | .refused _ => none

end Sys2Proof.Machine
end

