-- ==== Sys2Proof/Certificates/Slice0/Obligations.lean ====
section
/-! DEFINITION. What is claimed of the block, one statement each, from the numbered rules of spec/. -/

open Sys2Proof Sys2Proof.Machine

/-! Encoding (30_encoding.md). -/

/-- V-ENC-1 of 95_test_vectors.md: sample words and what they decode as. -/
def Obligations.SampleWordsDecode : Prop :=
  decode 0x0000#16 = .ok .nop ∧ decode 0x0100#16 = .ok (.start 0) ∧ decode 0x0102#16 = .ok (.start 2) ∧
    decode 0x01FF#16 = .ok (.start 255) ∧ decode 0x0200#16 = .ok (.pixel 0) ∧ decode 0x02FF#16 = .ok (.pixel 255) ∧
    decode 0x0300#16 = .ok .endCmd ∧ decode 0x0400#16 = .ok .reset ∧ decode 0x0001#16 = .error .argument ∧
    decode 0x0301#16 = .error .argument ∧ decode 0x0480#16 = .error .argument ∧ decode 0x0500#16 = .error .opcode ∧
    decode 0xFFFF#16 = .error .opcode

/-- A word decodes to a command exactly where the command can be encoded and the word is its encoding: no bit of a word
is dropped and none is free (R45 to R48, R51). -/
def Obligations.DecodeAndEncodeAgree : Prop :=
  ∀ (w : CmdWord) (i : Instr), decode w = .ok i ↔ i.wellFormed = true ∧ encode i = w

/-- R47: the rows do not overlap, and exactly one row, or none, matches any word: the decoded command's row. -/
def Obligations.OneRowOrNoneMatchesAWord : Prop :=
  opcodeMap = [⟨0x0000#16, 0xFFFF#16⟩, ⟨0x0100#16, 0xFF00#16⟩, ⟨0x0200#16, 0xFF00#16⟩, ⟨0x0300#16, 0xFFFF#16⟩,
      ⟨0x0400#16, 0xFFFF#16⟩] ∧
    ∀ w : CmdWord, opcodeMap.filter (fun r => r.selects w) =
      match decode w with
      | .ok i => [i.row]
      | .error _ => []

/-! One step (20_memory.md section 5). -/

/-- A step takes the oldest input: a command word that decodes to `i` is `exec i` of the state without that input; an
illegal word and the reset input have their effects; with nothing before it the block waits. `withFetchWord` puts the
word before the block. The model's choices: that inputs wait in State and what `withFetchWord` does (log entry 4), the
waiting (log entry 5), the reset input as one of the inputs (log entry 6), how `decodeTableWord` numbers a word (log
entry 13). -/
def Obligations.StepRunsTheDecodedCommand : Prop :=
  (∀ (s : State) (w : CmdWord) (rest : List Input) (i : Instr), s.inputs = .word w :: rest → decode w = .ok i →
      step s = exec i { s with inputs := rest }) ∧
    (∀ (s : State) (w : CmdWord) (rest : List Input) (e : Illegal), s.inputs = .word w :: rest → decode w = .error e →
      step s = execIllegal { s with inputs := rest }) ∧
    (∀ (s : State) (rest : List Input), s.inputs = .hardwareReset :: rest →
      step s = hardwareReset { s with inputs := rest }) ∧
    (∀ s : State, s.inputs = [] → step s = .next s) ∧
    ∀ (s : State) (nbits w : Nat) (i : Instr), decodeTableWord nbits w = some i →
      step (s.withFetchWord nbits w) = exec i s

/-- R34, R40, R5: whatever the input, a step withdraws no byte of the output channel, takes exactly the oldest input, and
leaves the instance's parameters. The model's choices and readings: that channels and parameters stand in State (log
entries 1 and 4), that a step with no input takes nothing (log entry 5), and that the inputs after the reset input stay in
place (log entry 6). -/
def Obligations.StepOnlyAppendsToTheOutput : Prop :=
  ∀ s t : State, step s = .next t → s.out <+: t.out ∧ t.inputs = s.inputs.tail ∧ t.cfg = s.cfg

/-! Reset (10_state.md section 6, 70_reset_and_hazards.md section 1). -/

/-- R30: the registers' values after reset, right after power-on, after the `RESET` command and after the reset input;
`STATUS` reads `0x0000`. (`SBBUF` is unspecified there.) -/
def Obligations.RegistersAfterReset : Prop :=
  ∀ t : State,
    (t = State.reset ∨ (∃ s, exec .reset s = .next t) ∨
      ∃ s rest, s.inputs = .hardwareReset :: rest ∧ step s = .next t) →
    t.phase = .idle ∧ t.err = .noError ∧ t.mcs = 0 ∧ t.width = 0 ∧ t.next = 0 ∧ t.dict = [] ∧ t.p = [] ∧ t.acc = 0 ∧
      t.acclen = 0 ∧ t.sbcnt = 0 ∧ readStatus t = (0x0000#16, t)

/-- R80, R95: the `RESET` command and the reset input do the same from every phase: they complete, write every register
but `SBBUF`, append nothing and withdraw nothing. That the inputs after the reset input stay in place is the model's
reading (log entry 6). -/
def Obligations.BothResetsDoTheSame : Prop :=
  ∀ (s : State) (rest : List Input),
    step { s with inputs := .word 0x0400#16 :: rest } = step { s with inputs := .hardwareReset :: rest } ∧
      exec .reset s = .next { s with
        phase := .idle, err := .noError, mcs := 0, width := 0, next := 0, dict := [], p := [], acc := 0, acclen := 0,
        sbcnt := 0 } ∧
      step { s with inputs := .hardwareReset :: rest } = exec .reset { s with inputs := rest }

/-! `STATUS` and `NOP` (43_system_commands.md). -/

/-- R25, R26: a `STATUS` read returns the fields, each in its bits with a legal value, and has no side effect. -/
def Obligations.StatusReadReturnsTheFields : Prop :=
  (∀ s : State, (readStatus s).2 = s) ∧ (readStatus State.reset).1 = 0x0000#16 ∧
    ∀ s : State, s.Inv →
      let v := (readStatus s).1.toNat
      v % 4 = (match s.phase with | .idle => 0 | .active => 1 | .error => 2) ∧
        v / 4 % 8 = (match s.err with
          | .noError => 0 | .illegalCmd => 1 | .badMcs => 2 | .pixelRange => 3 | .sequence => 4) ∧
        v / 32 % 8 = 0 ∧ v / 256 % 16 = s.mcs ∧ v / 4096 = s.width ∧
        v = 4096 * s.width + 256 * s.mcs + 4 * (v / 4 % 8) + v % 4 ∧
        (s.mcs = 0 ∨ (2 ≤ s.mcs ∧ s.mcs ≤ 8)) ∧ (s.width = 0 ∨ (3 ≤ s.width ∧ s.width ≤ 12))

/-- R79: `NOP` has no effect in any phase; a word is `NOP` exactly if it is `0x0000`, and every other word with its `OP`
is illegal. -/
def Obligations.NopHasNoEffect : Prop :=
  (∀ s : State, exec .nop s = .next s) ∧ (∀ w : CmdWord, decode w = .ok .nop ↔ w = 0x0000#16) ∧
    ∀ w : CmdWord, w.toNat / 256 = 0 → w ≠ 0x0000#16 → ∃ e, decode w = .error e

/-! Errors (60_exceptions.md). -/

/-- R83: which words raise `ILLEGAL_CMD` (1), in which phases, and that exactly these decode as `ILLEGAL`. -/
def Obligations.IllegalWordsRaiseIllegalCmd : Prop :=
  ErrCode.illegalCmd.code = 1 ∧
    (∀ w : CmdWord, (∃ e, decode w = .error e) ↔ illegalNumber w) ∧
    ∀ (w : CmdWord) (s : State), illegalNumber w →
      (s.phase = .idle ∨ s.phase = .active → runWord w s = .next { s with err := .illegalCmd, phase := .error }) ∧
        (s.phase = .error → runWord w s = .next s)

/-- R84: `START m` in `IDLE` with `m` outside 2 to 8 raises `BAD_MCS` (2). -/
def Obligations.StartOutsideTheRangeRaisesBadMcs : Prop :=
  ErrCode.badMcs.code = 2 ∧ ∀ (s : State) (m : Nat), s.phase = .idle → m < 2 ∨ 8 < m →
    exec (.start m) s = .next { s with err := .badMcs, phase := .error }

/-- R85: `PIXEL v` in `ACTIVE` with `v >= 2^MCS` raises `PIXEL_RANGE` (3). -/
def Obligations.PixelOutsideTheAlphabetRaisesPixelRange : Prop :=
  ErrCode.pixelRange.code = 3 ∧ ∀ (s : State) (v : Nat), s.phase = .active → 2 ^ s.mcs ≤ v →
    exec (.pixel v) s = .next { s with err := .pixelRange, phase := .error }

/-- R86: `START` in `ACTIVE`, and `PIXEL` or `END` in `IDLE`, raise `SEQUENCE` (4). -/
def Obligations.WrongPhaseRaisesSequence : Prop :=
  ErrCode.sequence.code = 4 ∧
    (∀ (s : State) (m : Nat), s.phase = .active →
      exec (.start m) s = .next { s with err := .sequence, phase := .error }) ∧
    (∀ (s : State) (v : Nat), s.phase = .idle →
      exec (.pixel v) s = .next { s with err := .sequence, phase := .error }) ∧
    ∀ s : State, s.phase = .idle → exec .endCmd s = .next { s with err := .sequence, phase := .error }

/-- R87: the order of the checks, for every word: in `ERROR` a word other than `RESET` is ignored; otherwise the first
check that applies decides the error, and where none applies the command completes without one. -/
def Obligations.ErrorChecksRunInOrder : Prop :=
  (∀ (w : CmdWord) (s : State), s.phase = .error → w ≠ 0x0400#16 → runWord w s = .next s) ∧
    (∀ (w : CmdWord) (s : State) (e : ErrCode), s.phase ≠ .error → firstError w s = some e →
      runWord w s = .next { s with err := e, phase := .error }) ∧
    ∀ (w : CmdWord) (s : State), s.Inv → s.phase ≠ .error → firstError w s = none →
      ∃ t, runWord w s = .next t ∧ t.phase ≠ .error ∧ t.err = .noError

/-- R88: an error is precise: of all the state, only `PHASE` and `ERR` change, and `ERR` becomes one of 1 to 4. -/
def Obligations.ErrorsArePrecise : Prop :=
  ∀ (w : CmdWord) (s t : State), s.phase ≠ .error → runWord w s = .next t → t.phase = .error →
    ∃ e, 1 ≤ e.code ∧ e.code ≤ 4 ∧ t = { s with err := e, phase := .error }

/-- R89, R90: in `ERROR` a step with any command word other than `0x0400` changes nothing but that the word is taken, and
`STATUS` can be read; `RESET` and the reset input are the only ways out, and restore every register to its reset value.
The model's readings: a step with nothing before the block changes nothing (log entry 5), and the inputs after the reset
input stay in place (log entry 6). -/
def Obligations.OnlyResetLeavesError : Prop :=
  (∀ s : State, readStatus s = (status s, s)) ∧
    ∀ s : State, s.phase = .error →
      (s.inputs.head? ≠ some .hardwareReset → s.inputs.head? ≠ some (.word 0x0400#16) →
        step s = .next { s with inputs := s.inputs.tail }) ∧
      (s.inputs.head? = some .hardwareReset ∨ s.inputs.head? = some (.word 0x0400#16) →
        step s = .next { s with
          phase := .idle, err := .noError, mcs := 0, width := 0, next := 0, dict := [], p := [], acc := 0, acclen := 0,
          sbcnt := 0, inputs := s.inputs.tail })

/-- R16: the only transitions of `PHASE`: to `IDLE` by a reset, from `IDLE` to `ACTIVE` by `START`, from `ACTIVE` to
`IDLE` by `END`, and from `IDLE` or `ACTIVE` to `ERROR`. That a step with no input changes no phase, and that the reset
input is one of the inputs, are the model's readings (log entries 5 and 6). -/
def Obligations.PhaseTransitions : Prop :=
  ∀ s t : State, step s = .next t → t.phase ≠ s.phase →
    (t.phase = .idle ∧ s.inputs.head? = some .hardwareReset) ∨
      ∃ w, s.inputs.head? = some (.word w) ∧
        ((t.phase = .idle ∧ decode w = .ok .reset) ∨
          (s.phase = .idle ∧ t.phase = .active ∧ ∃ m, decode w = .ok (.start m)) ∨
          (s.phase = .active ∧ t.phase = .idle ∧ decode w = .ok .endCmd) ∨
          (s.phase ≠ .error ∧ t.phase = .error))

/-! Stream commands (42_stream_commands.md). -/

/-- R72, R69: `START m` with `m` from 2 to 8 in `IDLE` completes: the session's registers, the dictionary of R54, the
header byte, and the opening `CLEAR` in `m + 1` bits, whose only whole byte, if any, is the first of `SBBUF`. That `D` is
a list in the order of codes is the model's representation (log entry 8). -/
def Obligations.StartOpensASession : Prop :=
  ∀ (s : State) (m : Nat), s.phase = .idle → 2 ≤ m → m ≤ 8 →
    exec (.start m) s = .next { s with
      phase := .active, mcs := m, width := m + 1, next := 2 ^ m + 2,
      dict := (List.range (2 ^ m)).map (fun k => ([BitVec.ofNat 8 k], k)), p := [],
      acc := if m = 7 then 0 else if m = 8 then 1 else 2 ^ m,
      acclen := if m = 7 then 0 else if m = 8 then 1 else m + 1,
      sbbuf := if m = 7 then s.sbbuf.set 0 0x80#8 else if m = 8 then s.sbbuf.set 0 0x00#8 else s.sbbuf,
      sbcnt := if m = 7 ∨ m = 8 then 1 else 0,
      out := s.out ++ [BitVec.ofNat 8 m] }

/-- R55: the first pixel of a session, and a pixel that extends the match, write `P` and nothing else. -/
def Obligations.PixelsThatWriteNoCode : Prop :=
  (∀ (s : State) (v : Nat), s.phase = .active → v < 2 ^ s.mcs → s.p = [] →
      exec (.pixel v) s = .next { s with p := [BitVec.ofNat 8 v] }) ∧
    ∀ (s : State) (v : Nat), s.phase = .active → v < 2 ^ s.mcs → s.p ≠ [] →
      s.dict.has (s.p ++ [BitVec.ofNat 8 v]) = true →
      exec (.pixel v) s = .next { s with p := s.p ++ [BitVec.ofNat 8 v] }

/-- R55 to R57, R59, R61: a pixel that breaks the match while `NEXT < 4096` writes the code of `P` at the current width
(`putCode`, see PutCodeAppendsTheCodeBits), then checks the width against `NEXT` before the insertion, inserts the novel
string with code `NEXT`, and starts the new prefix. Nothing else changes. That the new entry stands last in `D` is the
model's representation (log entry 8). -/
def Obligations.BreakingPixelInsertsTheString : Prop :=
  ∀ (s : State) (v c : Nat), s.phase = .active → v < 2 ^ s.mcs → s.p ≠ [] →
    s.dict.has (s.p ++ [BitVec.ofNat 8 v]) = false → s.dict.find s.p = some c → s.next < 4096 →
    exec (.pixel v) s = .next { putCode c s.width s with
      width := if 2 ^ s.width ≤ s.next ∧ s.width < 12 then s.width + 1 else s.width,
      dict := s.dict ++ [(s.p ++ [BitVec.ofNat 8 v], s.next)], next := s.next + 1, p := [BitVec.ofNat 8 v] }

/-- R60, R61: a pixel that breaks the match while `NEXT = 4096` writes the code of `P`, then `CLEAR`, both in 12 bits, and
a new epoch starts; the novel string is not inserted. Nothing else changes. That `D` is a list in the order of codes is
the model's representation (log entry 8). -/
def Obligations.BreakingPixelResetsTheFullTable : Prop :=
  ∀ (s : State) (v c : Nat), s.phase = .active → v < 2 ^ s.mcs → s.p ≠ [] →
    s.dict.has (s.p ++ [BitVec.ofNat 8 v]) = false → s.dict.find s.p = some c → s.next = 4096 → s.width = 12 →
    exec (.pixel v) s = .next { putCode (2 ^ s.mcs) 12 (putCode c 12 s) with
      dict := (List.range (2 ^ s.mcs)).map (fun k => ([BitVec.ofNat 8 k], k)), next := 2 ^ s.mcs + 2,
      width := s.mcs + 1, p := [BitVec.ofNat 8 v] }

/-- R22, R73: a legal pixel completes from every state that meets the invariant; the session stays open and `P` is then a
non-empty key. -/
def Obligations.LegalPixelsComplete : Prop :=
  ∀ (s : State) (v : Nat), s.Inv → s.phase = .active → v < 2 ^ s.mcs →
    ∃ t, exec (.pixel v) s = .next t ∧ t.phase = .active ∧ t.err = s.err ∧ t.mcs = s.mcs ∧ t.p ≠ [] ∧
      t.dict.has t.p = true ∧ t.inputs = s.inputs ∧ t.cfg = s.cfg

/-- R74, R62, R67, R68: `END` completes from every state that meets the invariant. The bits it appends to those held are
the code of `P` (if any) at the current width, then, if enabled, `EOI` at the width the final width check leaves; padded
with zero bits to whole bytes they join the bytes pending, and everything leaves, with the terminator after it. -/
def Obligations.EndWritesTheRestAndTheTerminator : Prop :=
  ∀ s : State, s.Inv → s.phase = .active →
    ∃ t, exec .endCmd s = .next t ∧
      let width := if s.p ≠ [] ∧ s.next = 2 ^ s.width ∧ s.width < 12 then s.width + 1 else s.width
      let codes := (if s.p = [] then [] else [((s.dict.find s.p).getD 0, s.width)]) ++
        if s.cfg.emitEoi then [(2 ^ s.mcs + 1, width)] else []
      let raw := (List.range ((s.acclen + bitTotal codes + 7) / 8)).map fun j =>
        BitVec.ofNat 8 ((s.acc + 2 ^ s.acclen * streamValue codes) / 2 ^ (8 * j))
      let held := remaining (pending s) raw
      t.out = s.out ++ completed (pending s) raw ++
          (if held = [] then [] else BitVec.ofNat 8 held.length :: held) ++ [0x00#8] ∧
        t = { s with phase := .idle, width := width, p := [], acc := 0, acclen := 0, sbcnt := 0, sbbuf := t.sbbuf,
                     out := t.out }

/-- What each command leaves unchanged when it completes (the frames of R72 to R74, R79, R80): `NOP` everything; `RESET`
the buffer's places, the output and the inputs; `START`, `PIXEL` and `END` the registers that no step of their rules
writes. In the phases and on the values where a command raises an error, `ErrorsArePrecise` says more. -/
def Obligations.CommandFrames : Prop :=
  (∀ s t, exec .nop s = .next t → t = s) ∧
    (∀ s t, exec .reset s = .next t → t.sbbuf = s.sbbuf ∧ t.out = s.out ∧ t.inputs = s.inputs ∧ t.cfg = s.cfg) ∧
    (∀ s t m, exec (.start m) s = .next t → t.inputs = s.inputs ∧ t.cfg = s.cfg ∧
      (t.phase ≠ .error → t.err = s.err)) ∧
    (∀ s t v, exec (.pixel v) s = .next t → t.mcs = s.mcs ∧ t.inputs = s.inputs ∧ t.cfg = s.cfg ∧
      (t.phase ≠ .error → t.err = s.err ∧ t.phase = s.phase)) ∧
    ∀ s t, exec .endCmd s = .next t → t.mcs = s.mcs ∧ t.next = s.next ∧ t.dict = s.dict ∧ t.inputs = s.inputs ∧
      t.cfg = s.cfg ∧ (t.phase ≠ .error → t.err = s.err)

/-! The datapath, the packer and the framer (40_lzw_datapath.md, 41_bitpacker_framer.md). -/

/-- R54: `DictInit(m)` leaves exactly the `N` single-symbol strings, `NEXT = N + 2` and `WIDTH = m + 1`, and writes
nothing else. -/
def Obligations.DictInitLeavesTheSingleSymbols : Prop :=
  ∀ (s : State) (m : Nat), 2 ≤ m → m ≤ 8 →
    (∀ str : List Byte, (dictInit m s).dict.find str =
      match str with
      | [b] => if b.toNat < 2 ^ m then some b.toNat else none
      | _ => none) ∧
    dictInit m s = { s with dict := (dictInit m s).dict, next := 2 ^ m + 2, width := m + 1 }

/-- R59: `InsertEntry` gives the novel string the code `NEXT`, changes no other string's code, and raises `NEXT` by one. -/
def Obligations.InsertEntryAddsOneString : Prop :=
  ∀ (s : State) (str : List Byte), s.dict.has str = false → s.next < 4096 →
    (∀ q : List Byte, (insertEntry str s).dict.find q = if q = str then some s.next else s.dict.find q) ∧
      insertEntry str s = { s with dict := (insertEntry str s).dict, next := s.next + 1 }

/-- R57: while a session is open the width check is true exactly when `NEXT = 2^WIDTH` and `WIDTH < 12`, and then raises
`WIDTH` by one; it writes nothing else. -/
def Obligations.WidthCheckRaisesAtThePowerOfTwo : Prop :=
  ∀ s : State, s.Inv → s.phase = .active →
    widthCheck s = if s.next = 2 ^ s.width ∧ s.width < 12 then { s with width := s.width + 1 } else s

/-- R65, R36, R66: `PutCode` appends the code's bits above those held; every complete byte leaves, low bits first, and
joins the bytes pending, which leave as a sub-block when 255 have gathered. The bits held are then again fewer than 8, and
nothing else changes. -/
def Obligations.PutCodeAppendsTheCodeBits : Prop :=
  ∀ (s : State) (c w : Nat), s.acclen ≤ 7 → s.acc < 2 ^ s.acclen → s.sbcnt ≤ 254 → s.sbbuf.length = 255 →
    3 ≤ w → w ≤ 12 → c < 2 ^ w →
    let total := s.acc + c * 2 ^ s.acclen
    let n := (s.acclen + w) / 8
    let raw := (List.range n).map fun j => (BitVec.ofNat 8 (total / 2 ^ (8 * j)) : Byte)
    let t := putCode c w s
    t.acclen = (s.acclen + w) % 8 ∧ t.acc = total / 2 ^ (8 * n) ∧ t.acc < 2 ^ t.acclen ∧
      pending t = remaining (pending s) raw ∧ t.out = s.out ++ completed (pending s) raw ∧
      t.sbcnt = (pending t).length ∧ t.sbbuf.length = 255 ∧
      t = { s with acc := t.acc, acclen := t.acclen, sbbuf := t.sbbuf, sbcnt := t.sbcnt, out := t.out }

/-- R66: the 255th raw byte sends the sub-block, length byte `0xFF` and the 255 bytes in order, and empties the buffer; an
earlier one is only kept. -/
def Obligations.RawByteSendsFullSubBlocks : Prop :=
  ∀ (s : State) (b : Byte), s.sbbuf.length = 255 →
    (s.sbcnt < 254 → rawByte b s = { s with sbbuf := s.sbbuf.set s.sbcnt b, sbcnt := s.sbcnt + 1 }) ∧
      (s.sbcnt = 254 → rawByte b s = { s with
        sbbuf := s.sbbuf.set 254 b, sbcnt := 0, out := s.out ++ 0xFF#8 :: (s.sbbuf.take 254 ++ [b]) })

/-! The invariant (10_state.md section 5). -/

/-- The invariant holds right after reset. -/
def Obligations.ResetMeetsTheInvariant : Prop := State.reset.Inv

/-- R28: whatever the input, a step from a state that meets the invariant answers a next state, and that state meets it.
The invariant speaks of `D` as a list in the order of codes, the model's representation (log entry 8); that a step with no
input, and one with the reset input, are steps are the model's readings (log entries 5 and 6). -/
def Obligations.StepKeepsTheInvariant : Prop :=
  ∀ s : State, s.Inv → ∃ t, step s = .next t ∧ t.Inv

/-- R77: any sequence of inputs is acceptable in every phase: the block executes all of them, one step each, and none
stops it. That inputs wait in State, the reset input among them, is the model's choice and reading (log entries 4 and 6).
-/
def Obligations.EveryInputSequenceRunsToItsEnd : Prop :=
  ∀ (s : State) (ins : List Input), s.Inv →
    ∃ t, Host.Core.run Sys2Proof.core ins.length { s with inputs := ins } = .next t ∧ t.inputs = [] ∧ t.Inv

/-- R27: every register fits the width R12 gives it, in every state that meets the invariant. -/
def Obligations.RegistersFitTheirWidths : Prop := ∀ s : State, s.Inv → s.Fits

/-- R28 items 4 and 5, R56: the code of the pending prefix is below `NEXT` and fits the width it is written with. -/
def Obligations.DataCodesFitTheirWidth : Prop :=
  ∀ s : State, s.Inv → s.phase = .active → s.p ≠ [] →
    ∃ c, s.dict.find s.p = some c ∧ c ≤ s.next - 1 ∧ s.next - 1 < 2 ^ s.width ∧ s.mcs + 1 ≤ s.width ∧ s.width ≤ 12

/-- R21: no two strings have the same code, and `CLEAR` and `EOI` are the code of none. -/
def Obligations.CodesAreUniqueAndNotReserved : Prop :=
  ∀ (s : State) (q r : List Byte) (c : Nat), s.Inv → s.phase = .active → s.dict.find q = some c →
    c ≠ 2 ^ s.mcs ∧ c ≠ 2 ^ s.mcs + 1 ∧ c < s.next ∧ (s.dict.find r = some c → r = q)

/-- The dictionary's list stays in its canonical form through every step: codes strictly rising in the list's order, no
string twice. The list and its order are the model's representation (DESIGN CHOICE, log entry 8), no rule's: they make
equal maps equal data. What R21 says of the map, that no two strings have the same code, follows from the form. -/
def Obligations.DictionaryStaysCanonical : Prop :=
  ∀ s t : State, s.Inv → step s = .next t → t.dict.wf

/-! Output (20_memory.md section 2, 41_bitpacker_framer.md section 4). -/

/-- R35, R71: which command appends which bytes, and how many at most. -/
def Obligations.BytesEachCommandAppends : Prop :=
  ∀ (i : Instr) (s t : State), s.Inv → exec i s = .next t →
    ∃ bs, t.out = s.out ++ bs ∧
      match i with
      | .nop => bs = []
      | .reset => bs = []
      | .start m => bs = if s.phase = .idle ∧ 2 ≤ m ∧ m ≤ 8 then [BitVec.ofNat 8 m] else []
      | .pixel _ => bs = [] ∨ (bs.length = 256 ∧ bs.head? = some 0xFF#8)
      | .endCmd => if s.phase = .active then bs.getLast? = some 0x00#8 ∧ bs.length ≤ (if s.cfg.emitEoi then 261 else 260)
          else bs = []

/-- R70, R75, R58: a whole session from `IDLE` completes without error, and what it appends is the closed form: the header
byte, the sub-blocks of the raw bytes of the codes of R53 to R62 with the widths of R58, and the terminator. -/
def Obligations.SessionOutputIsTheClosedForm : Prop :=
  ∀ (s : State) (m : Nat) (pixels : List Byte), s.Inv → s.phase = .idle → 2 ≤ m → m ≤ 8 →
    (∀ v ∈ pixels, v.toNat < 2 ^ m) →
    ∃ t, runInstrs (sessionInstrs m pixels) s = .next t ∧ t.phase = .idle ∧ t.err = .noError ∧ t.mcs = m ∧
      t.out = s.out ++ framed m (sessionCodes s.cfg.emitEoi m pixels)

/-- R64: a session's output depends only on its own `m` and pixels and on `EMIT_EOI`, not on what the block did before:
from any two states between sessions, with the same parameters, the session runs to its end, legal or not, and appends
the same bytes. -/
def Obligations.SessionsAreIndependent : Prop :=
  ∀ (s s' : State) (m : Nat) (pixels : List Byte), s.Inv → s'.Inv → s.phase = .idle → s'.phase = .idle →
    s.cfg = s'.cfg →
    ∃ t t' bs, runInstrs (sessionInstrs m pixels) s = .next t ∧ runInstrs (sessionInstrs m pixels) s' = .next t' ∧
      t'.phase = t.phase ∧ t.out = s.out ++ bs ∧ t'.out = s'.out ++ bs

/-- R100: between `START` and `END` the output holds the header byte and complete 256-byte sub-blocks, nothing else. -/
def Obligations.OpenSessionOutputIsFullSubBlocks : Prop :=
  ∀ (s t : State) (m : Nat) (pixels : List Byte), s.Inv → s.phase = .idle → 2 ≤ m → m ≤ 8 →
    runInstrs (.start m :: pixels.map fun v => .pixel v.toNat) s = .next t →
    ∃ blocks : List (List Byte), (∀ b ∈ blocks, b.length = 255) ∧
      t.out = s.out ++ BitVec.ofNat 8 m :: blocks.flatMap fun b => 0xFF#8 :: b

/-! The host (00_scope.md section 6, 30_encoding.md section 5). -/

/-- R34, R39: the bytes the host has taken are the first bytes of the output channel, in order: none is lost, duplicated
or reordered. That holds at reset, every action keeps it from every platform in which it holds, and so it holds after any
actions. A take or a `STATUS` read does not act on the block. That a take from an empty channel completes and changes
nothing (`tail` of an empty channel) is the model's choice (log entry 10). -/
def Obligations.TakenBytesAreTheFirstOfTheChannel : Prop :=
  Platform.reset.taken <+: Platform.reset.block.out ∧
    (∀ (a : HostAction) (pl q : Platform), pl.taken <+: pl.block.out → pl.act a = .next q →
      q.taken <+: q.block.out) ∧
    (∀ (actions : List HostAction) (q : Platform), Platform.reset.run actions = .next q → q.taken <+: q.block.out) ∧
    ∀ pl : Platform,
      (∃ q, pl.act .takeByte = .next q ∧ q.block = pl.block ∧ q.taken ++ q.channel = pl.taken ++ pl.channel ∧
        q.channel = pl.channel.tail) ∧
      pl.act .rdStatus = .next { pl with reads := pl.reads ++ [status pl.block] }

/-- R52: the pseudo-commands assemble to their expansions. A line with a pseudo-command's name, in letters of either case,
and operands that read as numbers `ns` assembles to what the name stands for with `ns`; and that is, for operands that can
be encoded, the words of the expansion. The model's choices (log entry 12): how operands are written on the line, and that
`RUN`'s count may be above 255. -/
def Obligations.PseudoCommandsAssembleToTheirExpansions : Prop :=
  (∀ (kind : Mnemonic) (name text : List Char) (ns : List Nat), kind = .pixels ∨ kind = .run ∨ kind = .compress →
      (name.map Char.toLower, kind) ∈ mnemonics → ';' ∉ text → operands text = .ok ns →
      assembleLine (name ++ ' ' :: text) = do (← expand kind ns).mapM sendInstr) ∧
    ∀ (m v n : Nat) (vs : List Nat), m ≤ 255 → v ≤ 255 → (∀ x ∈ vs, x ≤ 255) →
    let send := fun i : Instr => HostAction.send (encode i)
    (do (← expand .pixels (v :: vs)).mapM sendInstr) = .ok ((v :: vs).map fun x => send (.pixel x)) ∧
      (do (← expand .run [v, n]).mapM sendInstr) = .ok (List.replicate n (send (.pixel v))) ∧
      (do (← expand .compress (m :: vs)).mapM sendInstr) =
        .ok (send (.start m) :: (vs.map fun x => send (.pixel x)) ++ [send .endCmd])

/-- R51: a command whose operand is above 255 is an assembly error; every other command is sent as a word that decodes back
to it. -/
def Obligations.AssembledCommandsDecodeBack : Prop :=
  (∀ n : Nat, 255 < n → sendInstr (.start n) = .error .operandRange ∧ sendInstr (.pixel n) = .error .operandRange) ∧
    ∀ i : Instr, (∀ n, i = .start n ∨ i = .pixel n → n ≤ 255) →
      ∃ w, sendInstr i = .ok (.send w) ∧ decode w = .ok i
end

