-- ==== Sys2Proof/Laws/Assembler.lean ====
section
/-! SUPPORT. The text form: blanks at the ends of operands do not matter (R51, log entry 12). -/

namespace Sys2Proof.Machine

theorem trim_blank_cons {b : Char} (hb : isBlank b = true) (cs : List Char) : trim (b :: cs) = trim cs := by
  simp [trim, hb]

theorem trim_append_blank {b : Char} (hb : isBlank b = true) (cs : List Char) : trim (cs ++ [b]) = trim cs := by
  unfold trim
  rw [List.dropWhile_append]
  split
  · rename_i h
    rw [List.isEmpty_iff] at h
    simp [h, hb]
  · simp [hb]

/-- The characters before the blanks at the end. -/
def rtrim (cs : List Char) : List Char := (cs.reverse.dropWhile isBlank).reverse

theorem rtrim_append_blank {b : Char} (hb : isBlank b = true) (cs : List Char) : rtrim (cs ++ [b]) = rtrim cs := by
  simp [rtrim, hb]

theorem rtrim_append_nonblank {c : Char} (hc : isBlank c = false) (cs : List Char) : rtrim (cs ++ [c]) = cs ++ [c] := by
  simp [rtrim, hc]

theorem trim_rtrim (cs : List Char) : trim (rtrim cs) = trim cs := by
  induction cs using List.reverseRecOn with
  | nil => rfl
  | append_singleton cs c ih =>
    cases hc : isBlank c with
    | true => rw [rtrim_append_blank hc, ih, trim_append_blank hc]
    | false => rw [rtrim_append_nonblank hc]

theorem splitAt_ne_nil (sep : Char) (cs : List Char) : splitAt sep cs ≠ [] := by
  induction cs with
  | nil => simp [splitAt]
  | cons c cs ih =>
    rw [splitAt]
    split
    · simp
    · split <;> simp

/-- A character that is no separator joins the first piece. -/
theorem splitAt_cons {sep c : Char} (hc : c ≠ sep) (cs : List Char) :
    ∃ piece more, splitAt sep cs = piece :: more ∧ splitAt sep (c :: cs) = (c :: piece) :: more := by
  cases h : splitAt sep cs with
  | nil => exact absurd h (splitAt_ne_nil sep cs)
  | cons piece more => exact ⟨piece, more, rfl, by simp [splitAt, h, hc]⟩

/-- A character that is no separator joins the last piece. -/
theorem splitAt_append {sep c : Char} (hc : c ≠ sep) (cs : List Char) :
    ∃ firsts piece, splitAt sep cs = firsts ++ [piece] ∧ splitAt sep (cs ++ [c]) = firsts ++ [piece ++ [c]] := by
  induction cs with
  | nil => exact ⟨[], [], rfl, by simp [splitAt, hc]⟩
  | cons d cs ih =>
    obtain ⟨firsts, piece, h1, h2⟩ := ih
    by_cases hd : d = sep
    · refine ⟨[] :: firsts, piece, ?_, ?_⟩
      · cases firsts <;> simp_all [splitAt]
      · cases firsts <;> simp_all [splitAt]
    · cases firsts with
      | nil => exact ⟨[], d :: piece, by simp_all [splitAt], by simp_all [splitAt]⟩
      | cons f fs => exact ⟨(d :: f) :: fs, piece, by simp_all [splitAt], by simp_all [splitAt]⟩

theorem blank_ne_comma {b : Char} (hb : isBlank b = true) : b ≠ ',' := by
  rintro rfl; exact absurd hb (by decide)

/-- What the operands of a line depend on: the pieces between the commas, without the blanks at their ends. -/
theorem operands_congr {cs ds : List Char} (h : trim cs = trim ds)
    (hp : (splitAt ',' cs).map trim = (splitAt ',' ds).map trim) : operands cs = operands ds := by
  have e : ∀ xs : List Char, (splitAt ',' xs).mapM (fun piece => number (trim piece)) =
      ((splitAt ',' xs).map trim).mapM number := fun xs => by rw [List.mapM_map]; rfl
  simp only [operands, h, e, hp]

theorem operands_blank_cons {b : Char} (hb : isBlank b = true) (cs : List Char) : operands (b :: cs) = operands cs := by
  obtain ⟨piece, more, h1, h2⟩ := splitAt_cons (blank_ne_comma hb) cs
  exact operands_congr (trim_blank_cons hb cs) (by simp [h1, h2, trim_blank_cons hb])

theorem operands_append_blank {b : Char} (hb : isBlank b = true) (cs : List Char) :
    operands (cs ++ [b]) = operands cs := by
  obtain ⟨firsts, piece, h1, h2⟩ := splitAt_append (blank_ne_comma hb) cs
  exact operands_congr (trim_append_blank hb cs) (by simp [h1, h2, trim_append_blank hb])

theorem operands_rtrim (cs : List Char) : operands (rtrim cs) = operands cs := by
  induction cs using List.reverseRecOn with
  | nil => rfl
  | append_singleton cs c ih =>
    cases hc : isBlank c with
    | true => rw [rtrim_append_blank hc, ih, operands_append_blank hc]
    | false => rw [rtrim_append_nonblank hc]

end Sys2Proof.Machine
end

