-- ==== Sys2Proof/Laws/Decode.lean ====
section
/-! SUPPORT. The fields of a command word and the word of a command, as numbers (R45, R46). -/

namespace Sys2Proof

theorem opField_toNat (w : CmdWord) : (opField w).toNat = w.toNat / 256 := by
  have := w.isLt
  simp only [opField, BitVec.extractLsb'_toNat, Nat.shiftRight_eq_div_pow]
  omega

theorem argField_toNat (w : CmdWord) : (argField w).toNat = w.toNat % 256 := by
  simp [argField, BitVec.extractLsb'_toNat]

/-- `OP` has a value exactly where the word's number says so. -/
theorem opField_eq (w : CmdWord) (k : Nat) (hk : k < 256) : opField w = BitVec.ofNat 8 k ↔ w.toNat / 256 = k := by
  rw [← BitVec.toNat_inj, opField_toNat, BitVec.toNat_ofNat]; omega

theorem argField_zero (w : CmdWord) : argField w = 0x00#8 ↔ w.toNat % 256 = 0 := by
  rw [← BitVec.toNat_inj, argField_toNat]; rfl

/-- A byte above a byte, as a number (R45). -/
theorem append_toNat (op arg : Byte) : (op ++ arg).toNat = op.toNat * 256 + arg.toNat := by
  have h := arg.isLt
  rw [BitVec.toNat_append, ← Nat.shiftLeft_add_eq_or_of_lt h, Nat.shiftLeft_eq]

/-- The number of a command's word (R47, R51). -/
theorem encode_toNat (i : Instr) (h : i.wellFormed = true) :
    (encode i).toNat =
      match i with
      | .nop => 0
      | .start m => 256 + m
      | .pixel v => 512 + v
      | .endCmd => 768
      | .reset => 1024 := by
  cases i <;> simp [Instr.wellFormed, argFits] at h <;> simp only [encode, append_toNat, BitVec.toNat_ofNat] <;> omega

/-- What a word decodes as, by its number: one case for each command, and the illegal words (R48, R49). -/
theorem decode_cases (w : CmdWord) :
    (w.toNat = 0 ∧ decode w = .ok .nop) ∨
      (w.toNat / 256 = 1 ∧ decode w = .ok (.start (w.toNat % 256))) ∨
      (w.toNat / 256 = 2 ∧ decode w = .ok (.pixel (w.toNat % 256))) ∨
      (w.toNat = 768 ∧ decode w = .ok .endCmd) ∨
      (w.toNat = 1024 ∧ decode w = .ok .reset) ∨ (Machine.illegalNumber w ∧ ∃ e, decode w = .error e) := by
  have h0 := opField_eq w 0 (by omega)
  have h1 := opField_eq w 1 (by omega)
  have h2 := opField_eq w 2 (by omega)
  have h3 := opField_eq w 3 (by omega)
  have h4 := opField_eq w 4 (by omega)
  have ha := argField_zero w
  unfold decode noOperand Machine.illegalNumber
  rw [argField_toNat]
  simp only [h0, h1, h2, h3, h4, ha]
  by_cases a : w.toNat % 256 = 0 <;> simp only [a, if_true, if_false]
  all_goals (split_ifs <;> simp <;> omega)

end Sys2Proof
end

