-- ==== Sys2Proof/Laws/Dict.lean ====
section
/-! SUPPORT. The dictionary as a map (R9, R21): reads after inserts, the initial content, and the canonical form. -/

namespace Sys2Proof.Machine

variable {d : Dict} {str q : List Byte} {c n : Nat}

/-- A read after an insert: the old entry where there is one, else the new one for the new string. -/
theorem Dict.find_insert (d : Dict) (str q : List Byte) (c : Nat) :
    (d.insert str c).find q = (d.find q).or (if q = str then some c else none) := by
  simp only [Dict.find, Dict.insert, List.lookup_append]
  by_cases h : q = str
  · simp [List.lookup, h]
  · simp [List.lookup, h, beq_false_of_ne h]

theorem Dict.find_insert_self (h : d.has str = false) : (d.insert str c).find str = some c := by
  simp only [Dict.has, Option.isSome_eq_false_iff, Option.isNone_iff_eq_none] at h
  simp [Dict.find_insert, h]

theorem Dict.find_insert_of_ne (h : q ≠ str) : (d.insert str c).find q = d.find q := by
  simp [Dict.find_insert, h]

theorem Dict.has_insert : (d.insert str c).has q = true ↔ d.has q = true ∨ q = str := by
  by_cases h : q = str <;> simp [Dict.has, Dict.find_insert, h]

/-- A code read is the code of an entry of that string. -/
theorem Dict.mem_of_find (h : d.find q = some c) : (q, c) ∈ d := by
  unfold Dict.find at h
  induction d with
  | nil => simp at h
  | cons e d ih =>
    obtain ⟨k, v⟩ := e
    simp only [List.lookup_cons] at h
    split at h
    · rename_i hk
      have : q = k := by simpa using hk
      simp_all
    · exact List.mem_cons_of_mem _ (ih h)

/-- The keys are the strings of the entries. -/
theorem Dict.has_iff : d.has q = true ↔ q ∈ d.map (·.1) := by
  unfold Dict.has Dict.find
  induction d with
  | nil => simp
  | cons e d ih =>
    obtain ⟨k, v⟩ := e
    simp only [List.lookup_cons, List.map_cons, List.mem_cons]
    by_cases h : q = k
    · simp [h]
    · simpa [h, beq_false_of_ne h] using ih

theorem Dict.find_of_has (h : d.has q = true) : ∃ c, d.find q = some c := Option.isSome_iff_exists.1 h

/-- The strings of the initial dictionary: one symbol, below `N` (R54). -/
theorem Dict.has_singles (hn : n ≤ 256) :
    (Dict.singles n).has q = true ↔ ∃ b : Byte, q = [b] ∧ b.toNat < n := by
  rw [Dict.has_iff]
  simp only [Dict.singles, List.map_map, List.mem_map, List.mem_range, Function.comp]
  constructor
  · rintro ⟨k, hk, rfl⟩
    exact ⟨_, rfl, by rw [BitVec.toNat_ofNat]; omega⟩
  · rintro ⟨b, rfl, hb⟩
    exact ⟨b.toNat, hb, by simp⟩

theorem Dict.singles_codes : (Dict.singles n).map (·.2) = List.range n := by
  simp [Dict.singles, Function.comp_def]

theorem Dict.singles_keysDistinct (hn : n ≤ 256) : ((Dict.singles n).map (·.1)).Nodup := by
  rw [Dict.singles, List.map_map]
  refine (List.nodup_range).map_on fun x hx y hy h => ?_
  simp only [List.mem_range, Function.comp, List.cons.injEq, and_true] at hx hy h
  have := congrArg BitVec.toNat h
  simp only [BitVec.toNat_ofNat] at this
  omega

/-- The initial dictionary has the canonical form. -/
theorem Dict.singles_wf (hn : n ≤ 256) : (Dict.singles n).wf :=
  ⟨by rw [Dict.singles_codes]; exact List.pairwise_lt_range, Dict.singles_keysDistinct hn⟩

theorem Dict.insert_keysDistinct (hd : (d.map (·.1)).Nodup) (h : d.has str = false) :
    ((d.insert str c).map (·.1)).Nodup := by
  have hs : str ∉ d.map (·.1) := by rw [← Dict.has_iff]; simp [h]
  simp only [Dict.insert, List.map_append, List.map_cons, List.map_nil]
  exact List.nodup_append.2 ⟨hd, by simp, by rintro a ha b hb rfl; simp_all⟩

/-- An insert of a novel string with a code above every code in use keeps the canonical form (R59). -/
theorem Dict.insert_wf (hd : d.wf) (h : d.has str = false) (hc : ∀ e ∈ d, e.2 < c) : (d.insert str c).wf := by
  refine ⟨?_, Dict.insert_keysDistinct hd.2 h⟩
  simp only [Dict.insert, List.map_append, List.map_cons, List.map_nil]
  refine List.pairwise_append.2 ⟨hd.1, by simp, ?_⟩
  simp only [List.mem_map, List.mem_singleton]
  rintro _ ⟨e, he, rfl⟩ _ rfl
  exact hc e he

/-- A new entry keeps the keys prefix-closed where the string without its last symbol is empty or a key (R28 item 3). -/
theorem Dict.insert_prefixClosed {v : Byte} (hd : d.prefixClosed) (hs : d.has str = true) :
    (d.insert (str ++ [v]) c).prefixClosed := by
  intro key hk q hq hp
  rcases Dict.has_insert.1 hk with h | rfl
  · exact Dict.has_insert.2 (.inl (hd _ h _ hq hp))
  · rcases List.prefix_concat_iff.1 hp with rfl | h
    · exact Dict.has_insert.2 (.inr rfl)
    · exact Dict.has_insert.2 (.inl (hd _ hs _ hq h))

theorem Dict.singles_prefixClosed (hn : n ≤ 256) : (Dict.singles n).prefixClosed := by
  intro key hk q hq hp
  obtain ⟨b, rfl, hb⟩ := (Dict.has_singles hn).1 hk
  refine (Dict.has_singles hn).2 ⟨b, ?_, hb⟩
  obtain ⟨t, ht⟩ := hp
  cases q with
  | nil => exact absurd rfl hq
  | cons a q => simp_all

end Sys2Proof.Machine
end

