-- ==== Sys2Proof/Laws/State.lean ====
section
/-! SUPPORT. One lemma per field per register write, true by `rfl`: no later proof unfolds a record update. -/

namespace Sys2Proof.Machine

variable (s : State)

section
variable (v : Phase)
@[simp] theorem State.setPhase_phase : (s.setPhase v).phase = v := rfl
@[simp] theorem State.setPhase_err : (s.setPhase v).err = s.err := rfl
@[simp] theorem State.setPhase_mcs : (s.setPhase v).mcs = s.mcs := rfl
@[simp] theorem State.setPhase_width : (s.setPhase v).width = s.width := rfl
@[simp] theorem State.setPhase_next : (s.setPhase v).next = s.next := rfl
@[simp] theorem State.setPhase_dict : (s.setPhase v).dict = s.dict := rfl
@[simp] theorem State.setPhase_p : (s.setPhase v).p = s.p := rfl
@[simp] theorem State.setPhase_acc : (s.setPhase v).acc = s.acc := rfl
@[simp] theorem State.setPhase_acclen : (s.setPhase v).acclen = s.acclen := rfl
@[simp] theorem State.setPhase_sbbuf : (s.setPhase v).sbbuf = s.sbbuf := rfl
@[simp] theorem State.setPhase_sbcnt : (s.setPhase v).sbcnt = s.sbcnt := rfl
@[simp] theorem State.setPhase_out : (s.setPhase v).out = s.out := rfl
@[simp] theorem State.setPhase_inputs : (s.setPhase v).inputs = s.inputs := rfl
@[simp] theorem State.setPhase_cfg : (s.setPhase v).cfg = s.cfg := rfl
end

section
variable (v : ErrCode)
@[simp] theorem State.setErr_phase : (s.setErr v).phase = s.phase := rfl
@[simp] theorem State.setErr_err : (s.setErr v).err = v := rfl
@[simp] theorem State.setErr_mcs : (s.setErr v).mcs = s.mcs := rfl
@[simp] theorem State.setErr_width : (s.setErr v).width = s.width := rfl
@[simp] theorem State.setErr_next : (s.setErr v).next = s.next := rfl
@[simp] theorem State.setErr_dict : (s.setErr v).dict = s.dict := rfl
@[simp] theorem State.setErr_p : (s.setErr v).p = s.p := rfl
@[simp] theorem State.setErr_acc : (s.setErr v).acc = s.acc := rfl
@[simp] theorem State.setErr_acclen : (s.setErr v).acclen = s.acclen := rfl
@[simp] theorem State.setErr_sbbuf : (s.setErr v).sbbuf = s.sbbuf := rfl
@[simp] theorem State.setErr_sbcnt : (s.setErr v).sbcnt = s.sbcnt := rfl
@[simp] theorem State.setErr_out : (s.setErr v).out = s.out := rfl
@[simp] theorem State.setErr_inputs : (s.setErr v).inputs = s.inputs := rfl
@[simp] theorem State.setErr_cfg : (s.setErr v).cfg = s.cfg := rfl
end

section
variable (v : Nat)
@[simp] theorem State.setMcs_phase : (s.setMcs v).phase = s.phase := rfl
@[simp] theorem State.setMcs_err : (s.setMcs v).err = s.err := rfl
@[simp] theorem State.setMcs_mcs : (s.setMcs v).mcs = v := rfl
@[simp] theorem State.setMcs_width : (s.setMcs v).width = s.width := rfl
@[simp] theorem State.setMcs_next : (s.setMcs v).next = s.next := rfl
@[simp] theorem State.setMcs_dict : (s.setMcs v).dict = s.dict := rfl
@[simp] theorem State.setMcs_p : (s.setMcs v).p = s.p := rfl
@[simp] theorem State.setMcs_acc : (s.setMcs v).acc = s.acc := rfl
@[simp] theorem State.setMcs_acclen : (s.setMcs v).acclen = s.acclen := rfl
@[simp] theorem State.setMcs_sbbuf : (s.setMcs v).sbbuf = s.sbbuf := rfl
@[simp] theorem State.setMcs_sbcnt : (s.setMcs v).sbcnt = s.sbcnt := rfl
@[simp] theorem State.setMcs_out : (s.setMcs v).out = s.out := rfl
@[simp] theorem State.setMcs_inputs : (s.setMcs v).inputs = s.inputs := rfl
@[simp] theorem State.setMcs_cfg : (s.setMcs v).cfg = s.cfg := rfl
end

section
variable (v : Nat)
@[simp] theorem State.setWidth_phase : (s.setWidth v).phase = s.phase := rfl
@[simp] theorem State.setWidth_err : (s.setWidth v).err = s.err := rfl
@[simp] theorem State.setWidth_mcs : (s.setWidth v).mcs = s.mcs := rfl
@[simp] theorem State.setWidth_width : (s.setWidth v).width = v := rfl
@[simp] theorem State.setWidth_next : (s.setWidth v).next = s.next := rfl
@[simp] theorem State.setWidth_dict : (s.setWidth v).dict = s.dict := rfl
@[simp] theorem State.setWidth_p : (s.setWidth v).p = s.p := rfl
@[simp] theorem State.setWidth_acc : (s.setWidth v).acc = s.acc := rfl
@[simp] theorem State.setWidth_acclen : (s.setWidth v).acclen = s.acclen := rfl
@[simp] theorem State.setWidth_sbbuf : (s.setWidth v).sbbuf = s.sbbuf := rfl
@[simp] theorem State.setWidth_sbcnt : (s.setWidth v).sbcnt = s.sbcnt := rfl
@[simp] theorem State.setWidth_out : (s.setWidth v).out = s.out := rfl
@[simp] theorem State.setWidth_inputs : (s.setWidth v).inputs = s.inputs := rfl
@[simp] theorem State.setWidth_cfg : (s.setWidth v).cfg = s.cfg := rfl
end

section
variable (v : Nat)
@[simp] theorem State.setNext_phase : (s.setNext v).phase = s.phase := rfl
@[simp] theorem State.setNext_err : (s.setNext v).err = s.err := rfl
@[simp] theorem State.setNext_mcs : (s.setNext v).mcs = s.mcs := rfl
@[simp] theorem State.setNext_width : (s.setNext v).width = s.width := rfl
@[simp] theorem State.setNext_next : (s.setNext v).next = v := rfl
@[simp] theorem State.setNext_dict : (s.setNext v).dict = s.dict := rfl
@[simp] theorem State.setNext_p : (s.setNext v).p = s.p := rfl
@[simp] theorem State.setNext_acc : (s.setNext v).acc = s.acc := rfl
@[simp] theorem State.setNext_acclen : (s.setNext v).acclen = s.acclen := rfl
@[simp] theorem State.setNext_sbbuf : (s.setNext v).sbbuf = s.sbbuf := rfl
@[simp] theorem State.setNext_sbcnt : (s.setNext v).sbcnt = s.sbcnt := rfl
@[simp] theorem State.setNext_out : (s.setNext v).out = s.out := rfl
@[simp] theorem State.setNext_inputs : (s.setNext v).inputs = s.inputs := rfl
@[simp] theorem State.setNext_cfg : (s.setNext v).cfg = s.cfg := rfl
end

section
variable (v : Dict)
@[simp] theorem State.setDict_phase : (s.setDict v).phase = s.phase := rfl
@[simp] theorem State.setDict_err : (s.setDict v).err = s.err := rfl
@[simp] theorem State.setDict_mcs : (s.setDict v).mcs = s.mcs := rfl
@[simp] theorem State.setDict_width : (s.setDict v).width = s.width := rfl
@[simp] theorem State.setDict_next : (s.setDict v).next = s.next := rfl
@[simp] theorem State.setDict_dict : (s.setDict v).dict = v := rfl
@[simp] theorem State.setDict_p : (s.setDict v).p = s.p := rfl
@[simp] theorem State.setDict_acc : (s.setDict v).acc = s.acc := rfl
@[simp] theorem State.setDict_acclen : (s.setDict v).acclen = s.acclen := rfl
@[simp] theorem State.setDict_sbbuf : (s.setDict v).sbbuf = s.sbbuf := rfl
@[simp] theorem State.setDict_sbcnt : (s.setDict v).sbcnt = s.sbcnt := rfl
@[simp] theorem State.setDict_out : (s.setDict v).out = s.out := rfl
@[simp] theorem State.setDict_inputs : (s.setDict v).inputs = s.inputs := rfl
@[simp] theorem State.setDict_cfg : (s.setDict v).cfg = s.cfg := rfl
end

section
variable (v : List Byte)
@[simp] theorem State.setP_phase : (s.setP v).phase = s.phase := rfl
@[simp] theorem State.setP_err : (s.setP v).err = s.err := rfl
@[simp] theorem State.setP_mcs : (s.setP v).mcs = s.mcs := rfl
@[simp] theorem State.setP_width : (s.setP v).width = s.width := rfl
@[simp] theorem State.setP_next : (s.setP v).next = s.next := rfl
@[simp] theorem State.setP_dict : (s.setP v).dict = s.dict := rfl
@[simp] theorem State.setP_p : (s.setP v).p = v := rfl
@[simp] theorem State.setP_acc : (s.setP v).acc = s.acc := rfl
@[simp] theorem State.setP_acclen : (s.setP v).acclen = s.acclen := rfl
@[simp] theorem State.setP_sbbuf : (s.setP v).sbbuf = s.sbbuf := rfl
@[simp] theorem State.setP_sbcnt : (s.setP v).sbcnt = s.sbcnt := rfl
@[simp] theorem State.setP_out : (s.setP v).out = s.out := rfl
@[simp] theorem State.setP_inputs : (s.setP v).inputs = s.inputs := rfl
@[simp] theorem State.setP_cfg : (s.setP v).cfg = s.cfg := rfl
end

section
variable (v : Nat)
@[simp] theorem State.setAcc_phase : (s.setAcc v).phase = s.phase := rfl
@[simp] theorem State.setAcc_err : (s.setAcc v).err = s.err := rfl
@[simp] theorem State.setAcc_mcs : (s.setAcc v).mcs = s.mcs := rfl
@[simp] theorem State.setAcc_width : (s.setAcc v).width = s.width := rfl
@[simp] theorem State.setAcc_next : (s.setAcc v).next = s.next := rfl
@[simp] theorem State.setAcc_dict : (s.setAcc v).dict = s.dict := rfl
@[simp] theorem State.setAcc_p : (s.setAcc v).p = s.p := rfl
@[simp] theorem State.setAcc_acc : (s.setAcc v).acc = v := rfl
@[simp] theorem State.setAcc_acclen : (s.setAcc v).acclen = s.acclen := rfl
@[simp] theorem State.setAcc_sbbuf : (s.setAcc v).sbbuf = s.sbbuf := rfl
@[simp] theorem State.setAcc_sbcnt : (s.setAcc v).sbcnt = s.sbcnt := rfl
@[simp] theorem State.setAcc_out : (s.setAcc v).out = s.out := rfl
@[simp] theorem State.setAcc_inputs : (s.setAcc v).inputs = s.inputs := rfl
@[simp] theorem State.setAcc_cfg : (s.setAcc v).cfg = s.cfg := rfl
end

section
variable (v : Nat)
@[simp] theorem State.setAcclen_phase : (s.setAcclen v).phase = s.phase := rfl
@[simp] theorem State.setAcclen_err : (s.setAcclen v).err = s.err := rfl
@[simp] theorem State.setAcclen_mcs : (s.setAcclen v).mcs = s.mcs := rfl
@[simp] theorem State.setAcclen_width : (s.setAcclen v).width = s.width := rfl
@[simp] theorem State.setAcclen_next : (s.setAcclen v).next = s.next := rfl
@[simp] theorem State.setAcclen_dict : (s.setAcclen v).dict = s.dict := rfl
@[simp] theorem State.setAcclen_p : (s.setAcclen v).p = s.p := rfl
@[simp] theorem State.setAcclen_acc : (s.setAcclen v).acc = s.acc := rfl
@[simp] theorem State.setAcclen_acclen : (s.setAcclen v).acclen = v := rfl
@[simp] theorem State.setAcclen_sbbuf : (s.setAcclen v).sbbuf = s.sbbuf := rfl
@[simp] theorem State.setAcclen_sbcnt : (s.setAcclen v).sbcnt = s.sbcnt := rfl
@[simp] theorem State.setAcclen_out : (s.setAcclen v).out = s.out := rfl
@[simp] theorem State.setAcclen_inputs : (s.setAcclen v).inputs = s.inputs := rfl
@[simp] theorem State.setAcclen_cfg : (s.setAcclen v).cfg = s.cfg := rfl
end

section
variable (v : List Byte)
@[simp] theorem State.setSbbuf_phase : (s.setSbbuf v).phase = s.phase := rfl
@[simp] theorem State.setSbbuf_err : (s.setSbbuf v).err = s.err := rfl
@[simp] theorem State.setSbbuf_mcs : (s.setSbbuf v).mcs = s.mcs := rfl
@[simp] theorem State.setSbbuf_width : (s.setSbbuf v).width = s.width := rfl
@[simp] theorem State.setSbbuf_next : (s.setSbbuf v).next = s.next := rfl
@[simp] theorem State.setSbbuf_dict : (s.setSbbuf v).dict = s.dict := rfl
@[simp] theorem State.setSbbuf_p : (s.setSbbuf v).p = s.p := rfl
@[simp] theorem State.setSbbuf_acc : (s.setSbbuf v).acc = s.acc := rfl
@[simp] theorem State.setSbbuf_acclen : (s.setSbbuf v).acclen = s.acclen := rfl
@[simp] theorem State.setSbbuf_sbbuf : (s.setSbbuf v).sbbuf = v := rfl
@[simp] theorem State.setSbbuf_sbcnt : (s.setSbbuf v).sbcnt = s.sbcnt := rfl
@[simp] theorem State.setSbbuf_out : (s.setSbbuf v).out = s.out := rfl
@[simp] theorem State.setSbbuf_inputs : (s.setSbbuf v).inputs = s.inputs := rfl
@[simp] theorem State.setSbbuf_cfg : (s.setSbbuf v).cfg = s.cfg := rfl
end

section
variable (v : Nat)
@[simp] theorem State.setSbcnt_phase : (s.setSbcnt v).phase = s.phase := rfl
@[simp] theorem State.setSbcnt_err : (s.setSbcnt v).err = s.err := rfl
@[simp] theorem State.setSbcnt_mcs : (s.setSbcnt v).mcs = s.mcs := rfl
@[simp] theorem State.setSbcnt_width : (s.setSbcnt v).width = s.width := rfl
@[simp] theorem State.setSbcnt_next : (s.setSbcnt v).next = s.next := rfl
@[simp] theorem State.setSbcnt_dict : (s.setSbcnt v).dict = s.dict := rfl
@[simp] theorem State.setSbcnt_p : (s.setSbcnt v).p = s.p := rfl
@[simp] theorem State.setSbcnt_acc : (s.setSbcnt v).acc = s.acc := rfl
@[simp] theorem State.setSbcnt_acclen : (s.setSbcnt v).acclen = s.acclen := rfl
@[simp] theorem State.setSbcnt_sbbuf : (s.setSbcnt v).sbbuf = s.sbbuf := rfl
@[simp] theorem State.setSbcnt_sbcnt : (s.setSbcnt v).sbcnt = v := rfl
@[simp] theorem State.setSbcnt_out : (s.setSbcnt v).out = s.out := rfl
@[simp] theorem State.setSbcnt_inputs : (s.setSbcnt v).inputs = s.inputs := rfl
@[simp] theorem State.setSbcnt_cfg : (s.setSbcnt v).cfg = s.cfg := rfl
end

section
variable (v : List Byte)
@[simp] theorem State.setOut_phase : (s.setOut v).phase = s.phase := rfl
@[simp] theorem State.setOut_err : (s.setOut v).err = s.err := rfl
@[simp] theorem State.setOut_mcs : (s.setOut v).mcs = s.mcs := rfl
@[simp] theorem State.setOut_width : (s.setOut v).width = s.width := rfl
@[simp] theorem State.setOut_next : (s.setOut v).next = s.next := rfl
@[simp] theorem State.setOut_dict : (s.setOut v).dict = s.dict := rfl
@[simp] theorem State.setOut_p : (s.setOut v).p = s.p := rfl
@[simp] theorem State.setOut_acc : (s.setOut v).acc = s.acc := rfl
@[simp] theorem State.setOut_acclen : (s.setOut v).acclen = s.acclen := rfl
@[simp] theorem State.setOut_sbbuf : (s.setOut v).sbbuf = s.sbbuf := rfl
@[simp] theorem State.setOut_sbcnt : (s.setOut v).sbcnt = s.sbcnt := rfl
@[simp] theorem State.setOut_out : (s.setOut v).out = v := rfl
@[simp] theorem State.setOut_inputs : (s.setOut v).inputs = s.inputs := rfl
@[simp] theorem State.setOut_cfg : (s.setOut v).cfg = s.cfg := rfl
end

section
variable (v : List Input)
@[simp] theorem State.setInputs_phase : (s.setInputs v).phase = s.phase := rfl
@[simp] theorem State.setInputs_err : (s.setInputs v).err = s.err := rfl
@[simp] theorem State.setInputs_mcs : (s.setInputs v).mcs = s.mcs := rfl
@[simp] theorem State.setInputs_width : (s.setInputs v).width = s.width := rfl
@[simp] theorem State.setInputs_next : (s.setInputs v).next = s.next := rfl
@[simp] theorem State.setInputs_dict : (s.setInputs v).dict = s.dict := rfl
@[simp] theorem State.setInputs_p : (s.setInputs v).p = s.p := rfl
@[simp] theorem State.setInputs_acc : (s.setInputs v).acc = s.acc := rfl
@[simp] theorem State.setInputs_acclen : (s.setInputs v).acclen = s.acclen := rfl
@[simp] theorem State.setInputs_sbbuf : (s.setInputs v).sbbuf = s.sbbuf := rfl
@[simp] theorem State.setInputs_sbcnt : (s.setInputs v).sbcnt = s.sbcnt := rfl
@[simp] theorem State.setInputs_out : (s.setInputs v).out = s.out := rfl
@[simp] theorem State.setInputs_inputs : (s.setInputs v).inputs = v := rfl
@[simp] theorem State.setInputs_cfg : (s.setInputs v).cfg = s.cfg := rfl
end

end Sys2Proof.Machine
end

