-- ==== Sys2Proof/Laws/Packer.lean ====
section
/-! SUPPORT. What the bit packer and the framer leave unchanged, one lemma a register, and what they do (R65 to R68). -/

namespace Sys2Proof.Machine

variable (s : State)

/-! Frames. -/

section
variable (b : Byte) (bs : List Byte) (c w : Nat)

@[simp] theorem outByte_phase : (outByte b s).phase = s.phase := rfl
@[simp] theorem outBytes_phase : (outBytes bs s).phase = s.phase := rfl
@[simp] theorem outByte_err : (outByte b s).err = s.err := rfl
@[simp] theorem outBytes_err : (outBytes bs s).err = s.err := rfl
@[simp] theorem outByte_mcs : (outByte b s).mcs = s.mcs := rfl
@[simp] theorem outBytes_mcs : (outBytes bs s).mcs = s.mcs := rfl
@[simp] theorem outByte_width : (outByte b s).width = s.width := rfl
@[simp] theorem outBytes_width : (outBytes bs s).width = s.width := rfl
@[simp] theorem outByte_next : (outByte b s).next = s.next := rfl
@[simp] theorem outBytes_next : (outBytes bs s).next = s.next := rfl
@[simp] theorem outByte_dict : (outByte b s).dict = s.dict := rfl
@[simp] theorem outBytes_dict : (outBytes bs s).dict = s.dict := rfl
@[simp] theorem outByte_p : (outByte b s).p = s.p := rfl
@[simp] theorem outBytes_p : (outBytes bs s).p = s.p := rfl
@[simp] theorem outByte_acc : (outByte b s).acc = s.acc := rfl
@[simp] theorem outBytes_acc : (outBytes bs s).acc = s.acc := rfl
@[simp] theorem outByte_acclen : (outByte b s).acclen = s.acclen := rfl
@[simp] theorem outBytes_acclen : (outBytes bs s).acclen = s.acclen := rfl
@[simp] theorem outByte_sbbuf : (outByte b s).sbbuf = s.sbbuf := rfl
@[simp] theorem outBytes_sbbuf : (outBytes bs s).sbbuf = s.sbbuf := rfl
@[simp] theorem outByte_sbcnt : (outByte b s).sbcnt = s.sbcnt := rfl
@[simp] theorem outBytes_sbcnt : (outBytes bs s).sbcnt = s.sbcnt := rfl
@[simp] theorem outByte_inputs : (outByte b s).inputs = s.inputs := rfl
@[simp] theorem outBytes_inputs : (outBytes bs s).inputs = s.inputs := rfl
@[simp] theorem outByte_cfg : (outByte b s).cfg = s.cfg := rfl
@[simp] theorem outBytes_cfg : (outBytes bs s).cfg = s.cfg := rfl
@[simp] theorem outByte_out : (outByte b s).out = s.out ++ [b] := rfl
@[simp] theorem outBytes_out : (outBytes bs s).out = s.out ++ bs := rfl
@[simp] theorem emitSubBlock_phase : (emitSubBlock s).phase = s.phase := rfl
@[simp] theorem bufferByte_phase : (bufferByte b s).phase = s.phase := rfl
@[simp] theorem rawByte_phase : (rawByte b s).phase = s.phase := by
  unfold rawByte; dsimp only; split <;> rfl
@[simp] theorem emitSubBlock_err : (emitSubBlock s).err = s.err := rfl
@[simp] theorem bufferByte_err : (bufferByte b s).err = s.err := rfl
@[simp] theorem rawByte_err : (rawByte b s).err = s.err := by
  unfold rawByte; dsimp only; split <;> rfl
@[simp] theorem emitSubBlock_mcs : (emitSubBlock s).mcs = s.mcs := rfl
@[simp] theorem bufferByte_mcs : (bufferByte b s).mcs = s.mcs := rfl
@[simp] theorem rawByte_mcs : (rawByte b s).mcs = s.mcs := by
  unfold rawByte; dsimp only; split <;> rfl
@[simp] theorem emitSubBlock_width : (emitSubBlock s).width = s.width := rfl
@[simp] theorem bufferByte_width : (bufferByte b s).width = s.width := rfl
@[simp] theorem rawByte_width : (rawByte b s).width = s.width := by
  unfold rawByte; dsimp only; split <;> rfl
@[simp] theorem emitSubBlock_next : (emitSubBlock s).next = s.next := rfl
@[simp] theorem bufferByte_next : (bufferByte b s).next = s.next := rfl
@[simp] theorem rawByte_next : (rawByte b s).next = s.next := by
  unfold rawByte; dsimp only; split <;> rfl
@[simp] theorem emitSubBlock_dict : (emitSubBlock s).dict = s.dict := rfl
@[simp] theorem bufferByte_dict : (bufferByte b s).dict = s.dict := rfl
@[simp] theorem rawByte_dict : (rawByte b s).dict = s.dict := by
  unfold rawByte; dsimp only; split <;> rfl
@[simp] theorem emitSubBlock_p : (emitSubBlock s).p = s.p := rfl
@[simp] theorem bufferByte_p : (bufferByte b s).p = s.p := rfl
@[simp] theorem rawByte_p : (rawByte b s).p = s.p := by
  unfold rawByte; dsimp only; split <;> rfl
@[simp] theorem emitSubBlock_inputs : (emitSubBlock s).inputs = s.inputs := rfl
@[simp] theorem bufferByte_inputs : (bufferByte b s).inputs = s.inputs := rfl
@[simp] theorem rawByte_inputs : (rawByte b s).inputs = s.inputs := by
  unfold rawByte; dsimp only; split <;> rfl
@[simp] theorem emitSubBlock_cfg : (emitSubBlock s).cfg = s.cfg := rfl
@[simp] theorem bufferByte_cfg : (bufferByte b s).cfg = s.cfg := rfl
@[simp] theorem rawByte_cfg : (rawByte b s).cfg = s.cfg := by
  unfold rawByte; dsimp only; split <;> rfl
@[simp] theorem emitSubBlock_acc : (emitSubBlock s).acc = s.acc := rfl
@[simp] theorem bufferByte_acc : (bufferByte b s).acc = s.acc := rfl
@[simp] theorem rawByte_acc : (rawByte b s).acc = s.acc := by
  unfold rawByte; dsimp only; split <;> rfl
@[simp] theorem emitSubBlock_acclen : (emitSubBlock s).acclen = s.acclen := rfl
@[simp] theorem bufferByte_acclen : (bufferByte b s).acclen = s.acclen := rfl
@[simp] theorem rawByte_acclen : (rawByte b s).acclen = s.acclen := by
  unfold rawByte; dsimp only; split <;> rfl
@[simp] theorem holdCode_phase : (holdCode c w s).phase = s.phase := rfl
@[simp] theorem shiftOut_phase : (shiftOut s).phase = s.phase := by
  simp [shiftOut]
@[simp] theorem packLoop_phase (n : Nat) : (packLoop n s).phase = s.phase := by
  induction n generalizing s with
  | zero => rfl
  | succ n ih => unfold packLoop; split <;> simp [ih]
@[simp] theorem putCode_phase : (putCode c w s).phase = s.phase := by
  simp [putCode]
@[simp] theorem flushBits_phase : (flushBits s).phase = s.phase := by
  unfold flushBits; dsimp only; split <;> simp
@[simp] theorem flushFrame_phase : (flushFrame s).phase = s.phase := by
  unfold flushFrame; split <;> simp
@[simp] theorem holdCode_err : (holdCode c w s).err = s.err := rfl
@[simp] theorem shiftOut_err : (shiftOut s).err = s.err := by
  simp [shiftOut]
@[simp] theorem packLoop_err (n : Nat) : (packLoop n s).err = s.err := by
  induction n generalizing s with
  | zero => rfl
  | succ n ih => unfold packLoop; split <;> simp [ih]
@[simp] theorem putCode_err : (putCode c w s).err = s.err := by
  simp [putCode]
@[simp] theorem flushBits_err : (flushBits s).err = s.err := by
  unfold flushBits; dsimp only; split <;> simp
@[simp] theorem flushFrame_err : (flushFrame s).err = s.err := by
  unfold flushFrame; split <;> simp
@[simp] theorem holdCode_mcs : (holdCode c w s).mcs = s.mcs := rfl
@[simp] theorem shiftOut_mcs : (shiftOut s).mcs = s.mcs := by
  simp [shiftOut]
@[simp] theorem packLoop_mcs (n : Nat) : (packLoop n s).mcs = s.mcs := by
  induction n generalizing s with
  | zero => rfl
  | succ n ih => unfold packLoop; split <;> simp [ih]
@[simp] theorem putCode_mcs : (putCode c w s).mcs = s.mcs := by
  simp [putCode]
@[simp] theorem flushBits_mcs : (flushBits s).mcs = s.mcs := by
  unfold flushBits; dsimp only; split <;> simp
@[simp] theorem flushFrame_mcs : (flushFrame s).mcs = s.mcs := by
  unfold flushFrame; split <;> simp
@[simp] theorem holdCode_width : (holdCode c w s).width = s.width := rfl
@[simp] theorem shiftOut_width : (shiftOut s).width = s.width := by
  simp [shiftOut]
@[simp] theorem packLoop_width (n : Nat) : (packLoop n s).width = s.width := by
  induction n generalizing s with
  | zero => rfl
  | succ n ih => unfold packLoop; split <;> simp [ih]
@[simp] theorem putCode_width : (putCode c w s).width = s.width := by
  simp [putCode]
@[simp] theorem flushBits_width : (flushBits s).width = s.width := by
  unfold flushBits; dsimp only; split <;> simp
@[simp] theorem flushFrame_width : (flushFrame s).width = s.width := by
  unfold flushFrame; split <;> simp
@[simp] theorem holdCode_next : (holdCode c w s).next = s.next := rfl
@[simp] theorem shiftOut_next : (shiftOut s).next = s.next := by
  simp [shiftOut]
@[simp] theorem packLoop_next (n : Nat) : (packLoop n s).next = s.next := by
  induction n generalizing s with
  | zero => rfl
  | succ n ih => unfold packLoop; split <;> simp [ih]
@[simp] theorem putCode_next : (putCode c w s).next = s.next := by
  simp [putCode]
@[simp] theorem flushBits_next : (flushBits s).next = s.next := by
  unfold flushBits; dsimp only; split <;> simp
@[simp] theorem flushFrame_next : (flushFrame s).next = s.next := by
  unfold flushFrame; split <;> simp
@[simp] theorem holdCode_dict : (holdCode c w s).dict = s.dict := rfl
@[simp] theorem shiftOut_dict : (shiftOut s).dict = s.dict := by
  simp [shiftOut]
@[simp] theorem packLoop_dict (n : Nat) : (packLoop n s).dict = s.dict := by
  induction n generalizing s with
  | zero => rfl
  | succ n ih => unfold packLoop; split <;> simp [ih]
@[simp] theorem putCode_dict : (putCode c w s).dict = s.dict := by
  simp [putCode]
@[simp] theorem flushBits_dict : (flushBits s).dict = s.dict := by
  unfold flushBits; dsimp only; split <;> simp
@[simp] theorem flushFrame_dict : (flushFrame s).dict = s.dict := by
  unfold flushFrame; split <;> simp
@[simp] theorem holdCode_p : (holdCode c w s).p = s.p := rfl
@[simp] theorem shiftOut_p : (shiftOut s).p = s.p := by
  simp [shiftOut]
@[simp] theorem packLoop_p (n : Nat) : (packLoop n s).p = s.p := by
  induction n generalizing s with
  | zero => rfl
  | succ n ih => unfold packLoop; split <;> simp [ih]
@[simp] theorem putCode_p : (putCode c w s).p = s.p := by
  simp [putCode]
@[simp] theorem flushBits_p : (flushBits s).p = s.p := by
  unfold flushBits; dsimp only; split <;> simp
@[simp] theorem flushFrame_p : (flushFrame s).p = s.p := by
  unfold flushFrame; split <;> simp
@[simp] theorem holdCode_inputs : (holdCode c w s).inputs = s.inputs := rfl
@[simp] theorem shiftOut_inputs : (shiftOut s).inputs = s.inputs := by
  simp [shiftOut]
@[simp] theorem packLoop_inputs (n : Nat) : (packLoop n s).inputs = s.inputs := by
  induction n generalizing s with
  | zero => rfl
  | succ n ih => unfold packLoop; split <;> simp [ih]
@[simp] theorem putCode_inputs : (putCode c w s).inputs = s.inputs := by
  simp [putCode]
@[simp] theorem flushBits_inputs : (flushBits s).inputs = s.inputs := by
  unfold flushBits; dsimp only; split <;> simp
@[simp] theorem flushFrame_inputs : (flushFrame s).inputs = s.inputs := by
  unfold flushFrame; split <;> simp
@[simp] theorem holdCode_cfg : (holdCode c w s).cfg = s.cfg := rfl
@[simp] theorem shiftOut_cfg : (shiftOut s).cfg = s.cfg := by
  simp [shiftOut]
@[simp] theorem packLoop_cfg (n : Nat) : (packLoop n s).cfg = s.cfg := by
  induction n generalizing s with
  | zero => rfl
  | succ n ih => unfold packLoop; split <;> simp [ih]
@[simp] theorem putCode_cfg : (putCode c w s).cfg = s.cfg := by
  simp [putCode]
@[simp] theorem flushBits_cfg : (flushBits s).cfg = s.cfg := by
  unfold flushBits; dsimp only; split <;> simp
@[simp] theorem flushFrame_cfg : (flushFrame s).cfg = s.cfg := by
  unfold flushFrame; split <;> simp

end

/-! The framer. -/

/-- The framer's part of the invariant: items 7 of R28, and the 255 places of `SBBUF`. -/
def Framed (s : State) : Prop := s.sbcnt ≤ 254 ∧ s.sbbuf.length = maxSubblock

variable {s}

theorem pending_length (h : Framed s) : (pending s).length = s.sbcnt := by
  have := h.1; have := h.2
  simp only [pending, List.length_take, maxSubblock] at *; omega

theorem take_set_succ {α : Type} (l : List α) (n : Nat) (x : α) (h : n < l.length) :
    (l.set n x).take (n + 1) = l.take n ++ [x] := by
  rw [List.take_add_one]
  simp [h, List.take_set_of_le]

theorem bufferByte_pending (b : Byte) (h : Framed s) : pending (bufferByte b s) = pending s ++ [b] :=
  take_set_succ _ _ _ (by have := h.1; have := h.2; simp only [maxSubblock] at *; omega)

@[simp] theorem bufferByte_out (b : Byte) : (bufferByte b s).out = s.out := rfl
@[simp] theorem bufferByte_sbcnt (b : Byte) : (bufferByte b s).sbcnt = s.sbcnt + 1 := rfl
@[simp] theorem bufferByte_length (b : Byte) : (bufferByte b s).sbbuf.length = s.sbbuf.length := by
  simp [bufferByte]
@[simp] theorem emitSubBlock_out : (emitSubBlock s).out = s.out ++ BitVec.ofNat 8 s.sbcnt :: pending s := by
  simp [emitSubBlock, pending]
@[simp] theorem emitSubBlock_sbcnt : (emitSubBlock s).sbcnt = 0 := rfl
@[simp] theorem emitSubBlock_sbbuf : (emitSubBlock s).sbbuf = s.sbbuf := rfl
@[simp] theorem emitSubBlock_pending : pending (emitSubBlock s) = [] := by simp [pending]

/-- What a raw byte does to the sub-block being filled and to the output (R66). -/
theorem rawByte_spec (b : Byte) (h : Framed s) :
    Framed (rawByte b s) ∧ pending (rawByte b s) = remaining (pending s) [b] ∧
      (rawByte b s).out = s.out ++ completed (pending s) [b] := by
  have hp := bufferByte_pending b h
  have hl : (pending s ++ [b]).length = s.sbcnt + 1 := by simp [pending_length h]
  obtain ⟨h1, h2⟩ := h
  unfold rawByte remaining completed Framed
  rw [hl]
  dsimp only
  split
  · rename_i hf
    have hn : s.sbcnt + 1 = 255 := hf
    rw [if_pos (by omega), if_pos (by omega), List.drop_of_length_le (by omega), List.take_of_length_le (by omega)]
    simp [hp, h2, hn]
  · rename_i hf
    have hn : s.sbcnt + 1 ≠ 255 := hf
    rw [if_neg (by omega), if_neg (by omega)]
    simp [hp, h2]; omega

/-- The raw bytes of the session so far, `F`, as the framer has treated them: its full chunks of 255 are on the output
after `base`, the rest is pending (R66). -/
def Sliced (base F : List Byte) (s : State) : Prop :=
  Framed s ∧ pending s = F.drop (255 * (F.length / 255)) ∧
    s.out = base ++ (List.range (F.length / 255)).flatMap fun j => 0xFF#8 :: (F.drop (255 * j)).take 255

/-- A raw byte joins the raw bytes so far (R66). -/
theorem rawByte_sliced {base F : List Byte} (b : Byte) (h : Sliced base F s) :
    Sliced base (F ++ [b]) (rawByte b s) := by
  obtain ⟨hf, hp, ho⟩ := h
  obtain ⟨h1, h2, h3⟩ := rawByte_spec b hf
  have blocks : ∀ n, n ≤ F.length / 255 →
      ((List.range n).flatMap fun j => 0xFF#8 :: ((F ++ [b]).drop (255 * j)).take 255) =
        (List.range n).flatMap fun j => 0xFF#8 :: (F.drop (255 * j)).take 255 := by
    intro n hn
    refine List.flatMap_congr fun j hj => ?_
    have : j < n := List.mem_range.1 hj
    rw [List.drop_append_of_le_length (by omega), List.take_append_of_le_length (by simp; omega)]
  refine ⟨h1, ?_, ?_⟩
  · rw [h2, hp, remaining]
    simp only [List.length_append, List.length_drop, List.length_singleton]
    split
    · have e : (F.length + 1) / 255 = F.length / 255 + 1 := by omega
      rw [e, List.drop_of_length_le (by simp; omega), List.drop_of_length_le (by simp; omega)]
    · have e : (F.length + 1) / 255 = F.length / 255 := by omega
      rw [e, List.drop_append_of_le_length (by omega)]
  · rw [h3, ho, hp, completed]
    simp only [List.length_append, List.length_drop, List.length_singleton]
    split
    · have e : (F.length + 1) / 255 = F.length / 255 + 1 := by omega
      rw [e, List.range_succ, List.flatMap_append, blocks _ le_rfl, ← List.append_assoc]
      simp only [List.flatMap_cons, List.flatMap_nil, List.append_nil]
      rw [List.drop_append_of_le_length (by omega)]
    · have e : (F.length + 1) / 255 = F.length / 255 := by omega
      rw [e, blocks _ le_rfl]; simp

/-! The bit packer. -/

/-- The packer's part of the invariant: item 6 of R28. -/
def Packed (s : State) : Prop := s.acclen ≤ 7 ∧ s.acc < 2 ^ s.acclen

/-- A list of `n` raw bytes of the value `x`, the low byte first (R36). -/
def lowBytes (n x : Nat) : List Byte := (List.range n).map fun j => BitVec.ofNat 8 (x / 2 ^ (8 * j))

theorem lowBytes_succ (n x : Nat) : lowBytes (n + 1) x = BitVec.ofNat 8 x :: lowBytes n (x / 2 ^ 8) := by
  simp only [lowBytes, List.range_succ_eq_map, List.map_cons, List.map_map, Nat.mul_zero, pow_zero, Nat.div_one]
  congr 1
  refine List.map_congr_left fun j _ => ?_
  simp only [Function.comp, Nat.succ_eq_add_one, Nat.mul_add, Nat.mul_one, pow_add, Nat.div_div_eq_div_mul]
  rw [Nat.mul_comm]

@[simp] theorem lowBytes_length (n x : Nat) : (lowBytes n x).length = n := by simp [lowBytes]

/-- The loop of `PutCode` sends the low byte for as long as 8 bits are held, and its fuel never runs out (R65). -/
theorem packLoop_done (n : Nat) {base F : List Byte} (h : Sliced base F s) (hn : s.acclen / 8 ≤ n) :
    Sliced base (F ++ lowBytes (s.acclen / 8) s.acc) (packLoop n s) ∧
      (packLoop n s).acclen = s.acclen % 8 ∧ (packLoop n s).acc = s.acc / 2 ^ (8 * (s.acclen / 8)) := by
  induction n generalizing s F with
  | zero =>
    have h0 : s.acclen / 8 = 0 := by omega
    have h8 : s.acclen % 8 = s.acclen := by omega
    simpa [packLoop, h0, h8, lowBytes] using h
  | succ n ih =>
    unfold packLoop
    split
    · rename_i hc
      have hs : Sliced base (F ++ [accByte s]) (shiftOut s) := rawByte_sliced (accByte s) h
      have ha : (shiftOut s).acclen = s.acclen - 8 := by simp [shiftOut]
      have hb : (shiftOut s).acc = s.acc / 2 ^ 8 := by simp [shiftOut, Nat.shiftRight_eq_div_pow]
      obtain ⟨i1, i2, i3⟩ := ih hs (by omega)
      have e : s.acclen / 8 = (s.acclen - 8) / 8 + 1 := by omega
      refine ⟨?_, by omega, ?_⟩
      · rw [e, lowBytes_succ]
        rw [ha, hb, List.append_assoc] at i1
        exact i1
      · rw [i3, ha, hb, e, Nat.div_div_eq_div_mul, ← pow_add]
        congr 2; omega
    · have h0 : s.acclen / 8 = 0 := by omega
      have h8 : s.acclen % 8 = s.acclen := by omega
      simpa [h0, h8, lowBytes] using h

/-- Or-ing a code above the bits held adds it there: no bit overlaps (R65). -/
theorem hold_eq_add {a n : Nat} (c : Nat) (h : a < 2 ^ n) : a ||| c <<< n = a + c * 2 ^ n := by
  have := Nat.shiftLeft_add_eq_or_of_lt h c
  rw [Nat.lor_comm, ← this, Nat.shiftLeft_eq]; omega

/-- `PutCode(c, w)` on the stream: every complete byte leaves, the rest stays in the accumulator (R65). -/
theorem putCode_sliced (c w : Nat) {base F : List Byte} (h : Sliced base F s) (hp : Packed s) :
    Sliced base (F ++ lowBytes ((s.acclen + w) / 8) (s.acc + c * 2 ^ s.acclen)) (putCode c w s) ∧
      (putCode c w s).acclen = (s.acclen + w) % 8 ∧
      (putCode c w s).acc = (s.acc + c * 2 ^ s.acclen) / 2 ^ (8 * ((s.acclen + w) / 8)) := by
  have hh : Sliced base F (holdCode c w s) := h
  have := packLoop_done (holdCode c w s).acclen hh (Nat.div_le_self _ _)
  simpa only [putCode, holdCode, State.setAcclen_acclen, State.setAcclen_acc, State.setAcc_acc, hold_eq_add c hp.2] using this

/-- A state's own bytes pending and bits held are a stream since before them. -/
theorem sliced_self (hf : Framed s) : Sliced s.out (pending s) s := by
  have : (pending s).length / 255 = 0 := by rw [pending_length hf]; have := hf.1; omega
  exact ⟨hf, by simp [this], by simp [this]⟩

theorem putCode_framed (c w : Nat) (hf : Framed s) (hp : Packed s) : Framed (putCode c w s) :=
  (putCode_sliced c w (sliced_self hf) hp).1.1

theorem lowBytes_append (a b x : Nat) :
    lowBytes (a + b) x = lowBytes a x ++ lowBytes b (x / 2 ^ (8 * a)) := by
  simp only [lowBytes, List.range_add, List.map_append, List.map_map]
  congr 1
  refine List.map_congr_left fun j _ => ?_
  simp [Function.comp, Nat.mul_add, pow_add, Nat.div_div_eq_div_mul]

/-- The low bytes rest on the low bits. -/
theorem lowBytes_congr {a x y : Nat} (h : x % 2 ^ (8 * a) = y % 2 ^ (8 * a)) :
    lowBytes a x = lowBytes a y := by
  induction a generalizing x y with
  | zero => rfl
  | succ a ih =>
    rw [lowBytes_succ, lowBytes_succ]
    have e : 8 * (a + 1) = 8 + 8 * a := by ring
    rw [e, pow_add] at h
    congr 1
    · apply BitVec.eq_of_toNat_eq
      have := congrArg (· % 2 ^ 8) h
      simpa [Nat.mod_mul_right_mod] using this
    · apply ih
      have := congrArg (· / 2 ^ 8) h
      simpa [Nat.mod_mul_right_div_self] using this

/-- The bit stream since a moment at which the raw bytes `held` were pending and no bit was held: `B` bits of value `V`
have been written, the whole bytes are with the framer, the rest is in the accumulator (R36, R65). -/
structure Streamed (base held : List Byte) (V B : Nat) (s : State) : Prop where
  sl : Sliced base (held ++ lowBytes (B / 8) V) s
  len : s.acclen = B % 8
  acc : s.acc = V / 2 ^ (8 * (B / 8))
  lt : V < 2 ^ B

theorem Streamed.packed {base held V B s} (h : Streamed base held V B s) : Packed s := by
  refine ⟨by have := h.len; omega, ?_⟩
  rw [h.acc, h.len, Nat.div_lt_iff_lt_mul (by positivity), ← pow_add]
  rw [show B % 8 + 8 * (B / 8) = B by omega]; exact h.lt

/-- `PutCode` writes the code's bits above those written (R65). -/
theorem Streamed.put {base held V B s} (h : Streamed base held V B s) {c w} (hc : c < 2 ^ w) :
    Streamed base held (V + c * 2 ^ B) (B + w) (putCode c w s) := by
  obtain ⟨a, b, d⟩ := putCode_sliced c w h.sl h.packed
  have hB : B = B % 8 + 8 * (B / 8) := by omega
  have e1 : s.acc + c * 2 ^ s.acclen = (V + c * 2 ^ B) / 2 ^ (8 * (B / 8)) := by
    rw [h.acc, h.len]
    conv_rhs => rw [hB, pow_add, ← Nat.mul_assoc]
    rw [show (B % 8 + 8 * (B / 8)) / 8 = B / 8 by omega]
    rw [Nat.add_mul_div_right _ _ (by positivity)]
  have e2 : (B + w) / 8 = B / 8 + (s.acclen + w) / 8 := by rw [h.len]; omega
  have e3 : lowBytes (B / 8) (V + c * 2 ^ B) = lowBytes (B / 8) V := by
    apply lowBytes_congr
    conv_lhs => rw [hB, pow_add, ← Nat.mul_assoc]
    rw [show (B % 8 + 8 * (B / 8)) / 8 = B / 8 by omega]
    exact Nat.add_mul_mod_self_right _ _ _
  refine ⟨?_, ?_, ?_, ?_⟩
  · rw [e2, lowBytes_append, e3, ← e1, ← List.append_assoc]; exact a
  · rw [b, h.len]; omega
  · rw [d, e1, e2, Nat.div_div_eq_div_mul, ← pow_add, Nat.mul_add]
  · have := h.lt
    rw [pow_add]
    calc V + c * 2 ^ B < 2 ^ B + c * 2 ^ B := by omega
      _ = (c + 1) * 2 ^ B := by ring
      _ ≤ 2 ^ w * 2 ^ B := Nat.mul_le_mul_right _ hc
      _ = 2 ^ B * 2 ^ w := by ring

/-- The stream rests on the packer's and the framer's registers and the output alone. -/
theorem Streamed.congr {base held V B s} (h : Streamed base held V B s) {t : State} (h1 : t.acc = s.acc)
    (h2 : t.acclen = s.acclen) (h3 : t.sbbuf = s.sbbuf) (h4 : t.sbcnt = s.sbcnt) (h5 : t.out = s.out) :
    Streamed base held V B t := by
  obtain ⟨⟨⟨a, b⟩, c, d⟩, e, f, g⟩ := h
  refine ⟨⟨⟨by rw [h4]; exact a, by rw [h3]; exact b⟩, ?_, by rw [h5]; exact d⟩, by rw [h2]; exact e, by rw [h1]; exact f, g⟩
  rw [← c]; simp [pending, h3, h4]

/-- `FlushBits` sends the bits held, padded with zero bits to a whole byte (R67). -/
theorem Streamed.flush {base held V B s} (h : Streamed base held V B s) :
    Sliced base (held ++ lowBytes ((B + 7) / 8) V) (flushBits s) := by
  unfold flushBits
  dsimp only
  split
  · rename_i hl
    have e : (B + 7) / 8 = B / 8 + 1 := by have := h.len; omega
    have := rawByte_sliced (accByte s) h.sl
    rw [e, lowBytes_append, ← List.append_assoc]
    have e2 : lowBytes 1 (V / 2 ^ (8 * (B / 8))) = [accByte s] := by
      simp [accByte, h.acc, lowBytes]
    rw [e2]; exact this
  · rename_i hl
    have e : (B + 7) / 8 = B / 8 := by have := h.len; omega
    rw [e]; exact h.sl

/-- The sub-blocks of a raw stream: its full chunks, then the rest, if any (R70). -/
theorem subBlocks_eq (F : List Byte) : subBlocks F =
    ((List.range (F.length / 255)).flatMap fun j => 0xFF#8 :: (F.drop (255 * j)).take 255) ++
      if F.drop (255 * (F.length / 255)) = [] then []
      else BitVec.ofNat 8 (F.drop (255 * (F.length / 255))).length :: F.drop (255 * (F.length / 255)) := by
  have blocks : ((List.range (F.length / 255)).flatMap fun j =>
      let chunk := (F.drop (255 * j)).take 255
      BitVec.ofNat 8 chunk.length :: chunk) =
        (List.range (F.length / 255)).flatMap fun j => 0xFF#8 :: (F.drop (255 * j)).take 255 := by
    refine List.flatMap_congr fun j hj => ?_
    have : j < F.length / 255 := List.mem_range.1 hj
    dsimp only
    rw [List.length_take, List.length_drop, min_eq_left (by omega)]
  unfold subBlocks
  by_cases h : F.length % 255 = 0
  · rw [show (F.length + 254) / 255 = F.length / 255 by omega, blocks, if_pos (List.drop_of_length_le (by omega))]
    simp
  · have hne : F.drop (255 * (F.length / 255)) ≠ [] := by
      intro hc
      have := congrArg List.length hc
      simp at this; omega
    rw [show (F.length + 254) / 255 = F.length / 255 + 1 by omega, List.range_succ, List.flatMap_append, blocks,
      if_neg hne]
    simp only [List.flatMap_cons, List.flatMap_nil, List.append_nil]
    rw [List.take_of_length_le (by simp; omega)]

/-- `FlushFrame` completes the sub-blocks and sends the terminator (R68). -/
theorem flushFrame_sliced {base F s} (h : Sliced base F s) : (flushFrame s).out = base ++ subBlocks F ++ [0x00#8] := by
  obtain ⟨hf, hp, ho⟩ := h
  have hl := pending_length hf
  rw [subBlocks_eq]
  unfold flushFrame
  simp only [outByte_out]
  congr 1
  rw [← List.append_assoc, ← ho, ← hp]
  split
  · rename_i hs
    rw [if_neg (by intro hc; rw [hc] at hl; simp at hl; omega), hl]; simp
  · rename_i hs
    have : pending s = [] := List.length_eq_zero_iff.1 (by omega)
    rw [this]; simp

/-- Where few raw bytes have joined the bytes pending, at most one sub-block has left (R66, R71). -/
theorem Sliced.joined {base held raw : List Byte} {t : State} (h : Sliced base (held ++ raw) t)
    (hl : held.length ≤ 254) (hr : raw.length ≤ 255) :
    pending t = remaining held raw ∧ t.out = base ++ completed held raw := by
  obtain ⟨_, hp, ho⟩ := h
  unfold remaining completed
  by_cases h : 255 ≤ (held ++ raw).length
  · rw [if_pos h, if_pos h]
    have e : (held ++ raw).length / 255 = 1 := by simp at *; omega
    rw [e] at hp ho
    exact ⟨by simpa using hp, by rw [ho]; simp [List.range_succ]⟩
  · rw [if_neg h, if_neg h]
    have e : (held ++ raw).length / 255 = 0 := by omega
    rw [e] at hp ho
    exact ⟨by simpa using hp, by rw [ho]; simp⟩

/-- A state's own bytes pending and bits held are a stream since before them. -/
theorem streamed_self (hf : Framed s) (hp : Packed s) : Streamed s.out (pending s) s.acc s.acclen s := by
  have h0 : s.acclen / 8 = 0 := by have := hp.1; omega
  exact ⟨by rw [h0]; simpa [lowBytes] using sliced_self hf, by have := hp.1; omega, by rw [h0]; simp, hp.2⟩

/-- The bits held are fewer than 8 after every `PutCode` (R23, R65). -/
theorem putCode_packed (c w : Nat) (hf : Framed s) (hp : Packed s) (hc : c < 2 ^ w) : Packed (putCode c w s) :=
  ((streamed_self hf hp).put hc).packed

/-! The flushes. -/

@[simp] theorem flushBits_acc : (flushBits s).acc = 0 := rfl
@[simp] theorem flushBits_acclen : (flushBits s).acclen = 0 := rfl
@[simp] theorem flushFrame_acc : (flushFrame s).acc = s.acc := by
  unfold flushFrame; split <;> simp
@[simp] theorem flushFrame_acclen : (flushFrame s).acclen = s.acclen := by
  unfold flushFrame; split <;> simp
@[simp] theorem flushFrame_sbcnt : (flushFrame s).sbcnt = 0 := by
  unfold flushFrame; split
  · simp
  · simp; omega

theorem flushBits_framed (hf : Framed s) : Framed (flushBits s) := by
  unfold flushBits; dsimp only; split
  · exact (rawByte_spec _ hf).1
  · exact hf

theorem flushFrame_framed (hf : Framed s) : Framed (flushFrame s) := by
  unfold flushFrame; split
  · exact ⟨by simp, hf.2⟩
  · exact hf

/-! The closed form's sums. -/

theorem streamValue_append (l : List (Nat × Nat)) (c w : Nat) :
    streamValue (l ++ [(c, w)]) = streamValue l + c * 2 ^ bitTotal l := by
  induction l with
  | nil => simp [streamValue, bitTotal]
  | cons e l ih => obtain ⟨a, b⟩ := e; simp only [List.cons_append, streamValue, bitTotal, ih, pow_add]; ring

theorem bitTotal_append (l : List (Nat × Nat)) (c w : Nat) : bitTotal (l ++ [(c, w)]) = bitTotal l + w := by
  induction l with
  | nil => simp [bitTotal]
  | cons e l ih => obtain ⟨a, b⟩ := e; simp only [List.cons_append, bitTotal, ih]; omega

end Sys2Proof.Machine
end

