-- ==== Sys2Proof/Laws/Lzw.lean ====
section
/-! SUPPORT. The datapath's operations: what each leaves unchanged, and how an epoch evolves (R54, R57, R59). -/

namespace Sys2Proof.Machine

variable {s : State}

/-- The width check writes at most `WIDTH` (R57). -/
theorem widthCheck_cases (s : State) :
    (widthCheck s = s.setWidth (s.width + 1) ∧ 2 ^ s.width ≤ s.next ∧ s.width < maxCodeWidth) ∨
      (widthCheck s = s ∧ ¬ (2 ^ s.width ≤ s.next ∧ s.width < maxCodeWidth)) := by
  have := Nat.two_pow_pos s.width
  unfold widthCheck
  split
  · exact .inl ⟨rfl, by omega, by omega⟩
  · exact .inr ⟨rfl, by omega⟩

section
variable (c w m : Nat) (str : List Byte) (e : ErrCode) (s : State)
@[simp] theorem dictInit_phase : (dictInit m s).phase = s.phase := rfl
@[simp] theorem insertEntry_phase : (insertEntry str s).phase = s.phase := rfl
@[simp] theorem widthCheck_phase : (widthCheck s).phase = s.phase := by
  unfold widthCheck; split <;> rfl
@[simp] theorem tableReset_phase : (tableReset s).phase = s.phase := by simp [tableReset]
@[simp] theorem emitData_phase : (emitData c s).phase = s.phase := by simp [emitData]
@[simp] theorem growOrReset_phase : (growOrReset str s).phase = s.phase := by
  unfold growOrReset; split <;> simp
@[simp] theorem writeEoi_phase : (writeEoi s).phase = s.phase := by
  unfold writeEoi; split <;> simp
@[simp] theorem dictInit_err : (dictInit m s).err = s.err := rfl
@[simp] theorem insertEntry_err : (insertEntry str s).err = s.err := rfl
@[simp] theorem widthCheck_err : (widthCheck s).err = s.err := by
  unfold widthCheck; split <;> rfl
@[simp] theorem tableReset_err : (tableReset s).err = s.err := by simp [tableReset]
@[simp] theorem emitData_err : (emitData c s).err = s.err := by simp [emitData]
@[simp] theorem growOrReset_err : (growOrReset str s).err = s.err := by
  unfold growOrReset; split <;> simp
@[simp] theorem writeEoi_err : (writeEoi s).err = s.err := by
  unfold writeEoi; split <;> simp
@[simp] theorem dictInit_mcs : (dictInit m s).mcs = s.mcs := rfl
@[simp] theorem insertEntry_mcs : (insertEntry str s).mcs = s.mcs := rfl
@[simp] theorem widthCheck_mcs : (widthCheck s).mcs = s.mcs := by
  unfold widthCheck; split <;> rfl
@[simp] theorem raiseError_mcs : (raiseError e s).mcs = s.mcs := rfl
@[simp] theorem tableReset_mcs : (tableReset s).mcs = s.mcs := by simp [tableReset]
@[simp] theorem emitData_mcs : (emitData c s).mcs = s.mcs := by simp [emitData]
@[simp] theorem growOrReset_mcs : (growOrReset str s).mcs = s.mcs := by
  unfold growOrReset; split <;> simp
@[simp] theorem writeEoi_mcs : (writeEoi s).mcs = s.mcs := by
  unfold writeEoi; split <;> simp
@[simp] theorem insertEntry_width : (insertEntry str s).width = s.width := rfl
@[simp] theorem raiseError_width : (raiseError e s).width = s.width := rfl
@[simp] theorem writeEoi_width : (writeEoi s).width = s.width := by
  unfold writeEoi; split <;> simp
@[simp] theorem widthCheck_next : (widthCheck s).next = s.next := by
  unfold widthCheck; split <;> rfl
@[simp] theorem raiseError_next : (raiseError e s).next = s.next := rfl
@[simp] theorem emitData_next : (emitData c s).next = s.next := by simp [emitData]
@[simp] theorem writeEoi_next : (writeEoi s).next = s.next := by
  unfold writeEoi; split <;> simp
@[simp] theorem widthCheck_dict : (widthCheck s).dict = s.dict := by
  unfold widthCheck; split <;> rfl
@[simp] theorem raiseError_dict : (raiseError e s).dict = s.dict := rfl
@[simp] theorem emitData_dict : (emitData c s).dict = s.dict := by simp [emitData]
@[simp] theorem writeEoi_dict : (writeEoi s).dict = s.dict := by
  unfold writeEoi; split <;> simp
@[simp] theorem dictInit_p : (dictInit m s).p = s.p := rfl
@[simp] theorem insertEntry_p : (insertEntry str s).p = s.p := rfl
@[simp] theorem widthCheck_p : (widthCheck s).p = s.p := by
  unfold widthCheck; split <;> rfl
@[simp] theorem raiseError_p : (raiseError e s).p = s.p := rfl
@[simp] theorem tableReset_p : (tableReset s).p = s.p := by simp [tableReset]
@[simp] theorem emitData_p : (emitData c s).p = s.p := by simp [emitData]
@[simp] theorem growOrReset_p : (growOrReset str s).p = s.p := by
  unfold growOrReset; split <;> simp
@[simp] theorem writeEoi_p : (writeEoi s).p = s.p := by
  unfold writeEoi; split <;> simp
@[simp] theorem dictInit_acc : (dictInit m s).acc = s.acc := rfl
@[simp] theorem insertEntry_acc : (insertEntry str s).acc = s.acc := rfl
@[simp] theorem widthCheck_acc : (widthCheck s).acc = s.acc := by
  unfold widthCheck; split <;> rfl
@[simp] theorem raiseError_acc : (raiseError e s).acc = s.acc := rfl
@[simp] theorem dictInit_acclen : (dictInit m s).acclen = s.acclen := rfl
@[simp] theorem insertEntry_acclen : (insertEntry str s).acclen = s.acclen := rfl
@[simp] theorem widthCheck_acclen : (widthCheck s).acclen = s.acclen := by
  unfold widthCheck; split <;> rfl
@[simp] theorem raiseError_acclen : (raiseError e s).acclen = s.acclen := rfl
@[simp] theorem dictInit_sbbuf : (dictInit m s).sbbuf = s.sbbuf := rfl
@[simp] theorem insertEntry_sbbuf : (insertEntry str s).sbbuf = s.sbbuf := rfl
@[simp] theorem widthCheck_sbbuf : (widthCheck s).sbbuf = s.sbbuf := by
  unfold widthCheck; split <;> rfl
@[simp] theorem raiseError_sbbuf : (raiseError e s).sbbuf = s.sbbuf := rfl
@[simp] theorem resetState_sbbuf : (resetState s).sbbuf = s.sbbuf := rfl
@[simp] theorem dictInit_sbcnt : (dictInit m s).sbcnt = s.sbcnt := rfl
@[simp] theorem insertEntry_sbcnt : (insertEntry str s).sbcnt = s.sbcnt := rfl
@[simp] theorem widthCheck_sbcnt : (widthCheck s).sbcnt = s.sbcnt := by
  unfold widthCheck; split <;> rfl
@[simp] theorem raiseError_sbcnt : (raiseError e s).sbcnt = s.sbcnt := rfl
@[simp] theorem dictInit_out : (dictInit m s).out = s.out := rfl
@[simp] theorem insertEntry_out : (insertEntry str s).out = s.out := rfl
@[simp] theorem widthCheck_out : (widthCheck s).out = s.out := by
  unfold widthCheck; split <;> rfl
@[simp] theorem raiseError_out : (raiseError e s).out = s.out := rfl
@[simp] theorem resetState_out : (resetState s).out = s.out := rfl
@[simp] theorem dictInit_inputs : (dictInit m s).inputs = s.inputs := rfl
@[simp] theorem insertEntry_inputs : (insertEntry str s).inputs = s.inputs := rfl
@[simp] theorem widthCheck_inputs : (widthCheck s).inputs = s.inputs := by
  unfold widthCheck; split <;> rfl
@[simp] theorem raiseError_inputs : (raiseError e s).inputs = s.inputs := rfl
@[simp] theorem resetState_inputs : (resetState s).inputs = s.inputs := rfl
@[simp] theorem tableReset_inputs : (tableReset s).inputs = s.inputs := by simp [tableReset]
@[simp] theorem emitData_inputs : (emitData c s).inputs = s.inputs := by simp [emitData]
@[simp] theorem growOrReset_inputs : (growOrReset str s).inputs = s.inputs := by
  unfold growOrReset; split <;> simp
@[simp] theorem writeEoi_inputs : (writeEoi s).inputs = s.inputs := by
  unfold writeEoi; split <;> simp
@[simp] theorem dictInit_cfg : (dictInit m s).cfg = s.cfg := rfl
@[simp] theorem insertEntry_cfg : (insertEntry str s).cfg = s.cfg := rfl
@[simp] theorem widthCheck_cfg : (widthCheck s).cfg = s.cfg := by
  unfold widthCheck; split <;> rfl
@[simp] theorem raiseError_cfg : (raiseError e s).cfg = s.cfg := rfl
@[simp] theorem resetState_cfg : (resetState s).cfg = s.cfg := rfl
@[simp] theorem tableReset_cfg : (tableReset s).cfg = s.cfg := by simp [tableReset]
@[simp] theorem emitData_cfg : (emitData c s).cfg = s.cfg := by simp [emitData]
@[simp] theorem growOrReset_cfg : (growOrReset str s).cfg = s.cfg := by
  unfold growOrReset; split <;> simp
@[simp] theorem writeEoi_cfg : (writeEoi s).cfg = s.cfg := by
  unfold writeEoi; split <;> simp
@[simp] theorem dictInit_dict : (dictInit m s).dict = Dict.singles (2 ^ m) := rfl
@[simp] theorem dictInit_next : (dictInit m s).next = 2 ^ m + 2 := rfl
@[simp] theorem dictInit_width : (dictInit m s).width = m + 1 := rfl
@[simp] theorem insertEntry_dict : (insertEntry str s).dict = s.dict.insert str s.next := rfl
@[simp] theorem insertEntry_next : (insertEntry str s).next = s.next + 1 := rfl
@[simp] theorem raiseError_err : (raiseError e s).err = e := rfl
@[simp] theorem raiseError_phase : (raiseError e s).phase = .error := rfl
end

/-! The invariant's bitlen, between powers of two. -/

/-- `bitlen` of a number between two powers of two. -/
theorem bitlen_eq {x k : Nat} (h1 : 2 ^ k ≤ x) (h2 : x < 2 ^ (k + 1)) : bitlen x = k + 1 := by
  have : Nat.log2 x = k := (Nat.log2_eq_iff (by have := Nat.two_pow_pos k; omega)).2 ⟨h1, h2⟩
  simp [bitlen, this]

theorem lt_two_pow_bitlen (x : Nat) : x < 2 ^ bitlen x := Nat.lt_log2_self

theorem two_pow_bitlen_le {x : Nat} (h : x ≠ 0) : 2 ^ (bitlen x - 1) ≤ x := by
  simpa [bitlen] using Nat.log2_self_le h

/-- How the width follows the next code across a width check and one insertion (R28 item 4, R57). -/
theorem width_step {x w : Nat} (hx : 2 ≤ x) (hw : w = min maxCodeWidth (bitlen (x - 1))) (hc : x < codeSpace) :
    (if 2 ^ w ≤ x ∧ w < maxCodeWidth then w + 1 else w) = min maxCodeWidth (bitlen x) := by
  have h1 := lt_two_pow_bitlen (x - 1)
  have h2 := two_pow_bitlen_le (x := x - 1) (by omega)
  have hb : 1 ≤ bitlen (x - 1) := by simp [bitlen]
  have h12 : bitlen (x - 1) ≤ 12 := by
    by_contra h
    have : 2 ^ 12 ≤ 2 ^ (bitlen (x - 1) - 1) := Nat.pow_le_pow_right (by decide) (by omega)
    simp only [codeSpace] at hc; omega
  have hm : maxCodeWidth = 12 := rfl
  have hww : w = bitlen (x - 1) := by omega
  obtain ⟨k, hk⟩ : ∃ k, bitlen (x - 1) = k + 1 := ⟨bitlen (x - 1) - 1, by omega⟩
  rw [hk] at h1 h2 hww
  simp only [Nat.add_sub_cancel] at h2
  subst hww
  by_cases hp : 2 ^ (k + 1) ≤ x
  · have hk12 : k + 1 < 12 := by
      by_contra h
      have : 2 ^ 12 ≤ 2 ^ (k + 1) := Nat.pow_le_pow_right (by decide) (by omega)
      simp only [codeSpace] at hc; omega
    have : bitlen x = k + 1 + 1 := bitlen_eq hp (by have := Nat.two_pow_pos (k + 1); rw [pow_succ 2 (k + 1)]; omega)
    rw [if_pos ⟨hp, hk12⟩, this]; omega
  · have : bitlen x = k + 1 := bitlen_eq (by omega) (by omega)
    rw [if_neg (by omega), this]; omega

/-! Epochs. -/

theorem two_pow_mcs_le {m : Nat} (h : m ≤ 8) : 2 ^ m ≤ 256 :=
  (Nat.pow_le_pow_right (by decide) h).trans (by decide)

theorem four_le_two_pow {m : Nat} (h : 2 ≤ m) : 4 ≤ 2 ^ m :=
  (by decide : 4 ≤ 2 ^ 2).trans (Nat.pow_le_pow_right (by decide) h)

/-- `DictInit` opens an epoch (R54). -/
theorem dictInit_epoch {m : Nat} (s : State) (hm : 2 ≤ m ∧ m ≤ 8) (hs : s.mcs = m) : (dictInit m s).Epoch := by
  have h8 := two_pow_mcs_le hm.2
  have hl : (Dict.singles (2 ^ m)).length = 2 ^ m := by simp [Dict.singles]
  constructor
  · simpa [hs] using hm
  · simp [alphabetSize, hs, codeSpace]; omega
  · simp [alphabetSize, hs, Dict.singles_codes]
  · simpa [alphabetSize, hs] using List.take_of_length_le hl.le
  · simpa using Dict.singles_keysDistinct h8
  · simpa using Dict.singles_prefixClosed h8
  · simp [maxCodeWidth]; omega

/-- The codes in use lie below `NEXT` (R21). -/
theorem State.Epoch.code_lt (h : s.Epoch) {e : List Byte × Nat} (he : e ∈ s.dict) : e.2 < s.next := by
  have hm : e.2 ∈ s.dict.map (·.2) := List.mem_map_of_mem he
  have := h.nextRange
  rw [h.codes] at hm
  simp only [List.mem_append, List.mem_range, List.mem_range'_1] at hm
  omega

/-- Every symbol of the alphabet is a key (R61). -/
theorem State.Epoch.has_symbol (h : s.Epoch) {v : Nat} (hv : v < alphabetSize s) :
    s.dict.has [operandByte v] = true := by
  have hk : (Dict.singles (alphabetSize s)).has [operandByte v] = true := by
    refine (Dict.has_singles (two_pow_mcs_le h.mcsRange.2)).2 ⟨_, rfl, ?_⟩
    have := two_pow_mcs_le h.mcsRange.2
    simp only [operandByte, BitVec.toNat_ofNat, alphabetSize] at *
    omega
  rw [Dict.has_iff] at hk ⊢
  rw [← h.singles] at hk
  exact List.map_subset _ (List.take_subset _ _) hk

/-- The canonical form holds throughout an epoch. -/
theorem State.Epoch.dict_wf (h : s.Epoch) : s.dict.wf := by
  refine ⟨?_, h.keysDistinct⟩
  rw [h.codes, List.pairwise_append]
  refine ⟨List.pairwise_lt_range, List.pairwise_lt_range', ?_⟩
  intro a ha b hb
  simp only [List.mem_range, List.mem_range'_1] at ha hb
  omega

/-- An insertion of a novel string, the prefix with one symbol more, continues the epoch (R59). -/
theorem insertEntry_epoch {str : List Byte} {v : Byte} (h : s.Epoch) (hp : s.dict.has str = true)
    (hn : s.dict.has (str ++ [v]) = false) (hc : s.next < codeSpace) : (insertEntry (str ++ [v]) s).Epoch := by
  have hN := h.nextRange
  have hl : alphabetSize s ≤ s.dict.length := by
    have := congrArg List.length h.codes
    simp only [List.length_map, List.length_append, List.length_range, List.length_range'] at this
    omega
  constructor
  · simpa [insertEntry] using h.mcsRange
  · simp only [insertEntry, State.setNext_next, alphabetSize, State.setNext_mcs, State.setDict_mcs] at *; omega
  · have e : s.next + 1 - (alphabetSize s + 2) = s.next - (alphabetSize s + 2) + 1 := by omega
    have e2 : alphabetSize s + 2 + (s.next - (alphabetSize s + 2)) = s.next := by omega
    have : alphabetSize (insertEntry (str ++ [v]) s) = alphabetSize s := rfl
    rw [this]
    simp only [insertEntry, State.setNext_dict, State.setDict_dict, Dict.insert, List.map_append, h.codes,
      State.setNext_next, e, List.range'_1_concat, e2, List.map_cons, List.map_nil, List.append_assoc]
  · have : alphabetSize (insertEntry (str ++ [v]) s) = alphabetSize s := rfl
    rw [this, ← h.singles]
    simp [insertEntry, Dict.insert, List.take_append_of_le_length hl]
  · simpa [insertEntry] using Dict.insert_keysDistinct h.keysDistinct hn
  · simpa [insertEntry] using Dict.insert_prefixClosed h.prefixClosed hp
  · simpa [insertEntry] using h.widthRange

/-- An epoch rests on `MCS`, `NEXT`, `D` and the range of `WIDTH` alone. -/
theorem State.Epoch.congr {t : State} (h : s.Epoch) (h1 : t.mcs = s.mcs) (h2 : t.next = s.next)
    (h3 : t.dict = s.dict) (h4 : 3 ≤ t.width ∧ t.width ≤ maxCodeWidth) : t.Epoch := by
  have ha : alphabetSize t = alphabetSize s := by simp [alphabetSize, h1]
  exact ⟨by rw [h1]; exact h.mcsRange, by rw [ha, h2]; exact h.nextRange, by rw [ha, h2, h3]; exact h.codes,
    by rw [ha, h3]; exact h.singles, by rw [h3]; exact h.keysDistinct, by rw [h3]; exact h.prefixClosed, h4⟩

/-- A code read is below `NEXT` (R21). -/
theorem State.Epoch.find_lt (h : s.Epoch) {q : List Byte} {c : Nat} (hf : s.dict.find q = some c) : c < s.next :=
  h.code_lt (Dict.mem_of_find hf)

/-- Every code below `NEXT` fits the width (R28 item 4). -/
theorem State.Epoch.next_fits (h : s.Epoch) (hw : s.width = min maxCodeWidth (bitlen (s.next - 1))) :
    s.next - 1 < 2 ^ s.width := by
  have h1 := lt_two_pow_bitlen (s.next - 1)
  have h2 : s.next ≤ 4096 := h.nextRange.2
  rw [hw, show maxCodeWidth = 12 from rfl]
  by_cases hb : bitlen (s.next - 1) ≤ 12
  · rw [min_eq_right hb]; exact h1
  · rw [min_eq_left (by omega)]; omega

/-- `EOI` fits the width: `m + 1 <= WIDTH` (R28 item 4, R65). -/
theorem State.Epoch.mcs_lt_width (h : s.Epoch) (hw : s.width = min maxCodeWidth (bitlen (s.next - 1))) :
    s.mcs + 1 ≤ s.width := by
  have h1 := lt_two_pow_bitlen (s.next - 1)
  have h2 := h.nextRange.1
  have h3 := h.mcsRange
  have hm : maxCodeWidth = 12 := rfl
  simp only [alphabetSize] at h2
  have : s.mcs < bitlen (s.next - 1) := by
    by_contra hc
    have := Nat.pow_le_pow_right (show 0 < 2 by decide) (not_lt.1 hc)
    omega
  omega

/-- A data code keeps the epoch and what R28 says of the packer and the framer (R56). -/
theorem emitData_epoch (h : s.Epoch) (hw : s.width = min maxCodeWidth (bitlen (s.next - 1))) (hp : Packed s)
    (hf : Framed s) {c : Nat} (hc : c < s.next) :
    (emitData c s).Epoch ∧ Packed (emitData c s) ∧ Framed (emitData c s) ∧
      (emitData c s).width = if 2 ^ s.width ≤ s.next ∧ s.width < maxCodeWidth then s.width + 1 else s.width := by
  have hb := h.next_fits hw
  have hp' := putCode_packed c s.width hf hp (by omega)
  have hf' := putCode_framed c s.width hf hp
  have hr := h.widthRange
  have := widthCheck_cases (putCode c s.width s)
  simp only [putCode_width, putCode_next] at this
  unfold emitData
  rcases this with ⟨e, h1, h2⟩ | ⟨e, h1⟩
  · rw [e, if_pos ⟨h1, h2⟩]
    exact ⟨h.congr (by simp) (by simp) (by simp) (by simp; omega), hp', hf', by simp⟩
  · rw [e, if_neg h1]
    exact ⟨h.congr (by simp) (by simp) (by simp) (by simpa using hr), hp', hf', by simp⟩

end Sys2Proof.Machine
end

