-- ==== Sys2Proof/Laws/Operands.lean ====
section
/-! SUPPORT. The operand checks as inequalities (R46, R72, R73). -/

namespace Sys2Proof.Machine

@[simp] theorem mcsLegal_iff (m : Nat) : mcsLegal m = true ↔ 2 ≤ m ∧ m ≤ 8 := decide_eq_true_iff

@[simp] theorem pixelLegal_iff (v : Nat) (s : State) : pixelLegal v s = true ↔ v < 2 ^ s.mcs := decide_eq_true_iff

end Sys2Proof.Machine
end

