-- ==== Sys2Proof/Laws/PerInstr.lean ====
section
/-! SUPPORT. The statements made per command: each command's word stands in its row of the opcode map (R47). -/

namespace Sys2Proof.Laws.TableRow

/-- The command's word selects the command's row: `(cmd & mask) = match`. -/
def Statement (i : Instr) : Prop := i.row.selects (encode i) = true

/-- The mask `0xFF00` keeps the `OP` byte of a word. -/
theorem select_op (op x : Byte) : (op ++ x) &&& 0xFF00#16 = op ++ 0x00#8 := by
  ext i hi
  simp only [BitVec.getElem_and, BitVec.getElem_append]
  split
  · interval_cases i <;> simp
  · interval_cases i <;> simp

theorem nop : Statement .nop := by unfold Statement; decide

theorem start (m : Nat) : Statement (.start m) := by
  simp only [Statement, OpRow.selects, Instr.row, encode, select_op]; decide

theorem pixel (v : Nat) : Statement (.pixel v) := by
  simp only [Statement, OpRow.selects, Instr.row, encode, select_op]; decide

theorem endCmd : Statement .endCmd := by unfold Statement; decide

theorem reset : Statement .reset := by unfold Statement; decide

end Sys2Proof.Laws.TableRow
end

