-- ==== Sys2Proof/Laws/Step.lean ====
section
/-! SUPPORT. What an operation, a command and a run can do when they answer a next state: one inversion lemma each. -/

namespace Sys2Proof.Machine

variable {s t : State}

theorem thenDo_next {o : Host.Outcome State Fault Refusal} {f : State → State} (h : thenDo o f = .next t) :
    ∃ u, o = .next u ∧ t = f u := by
  cases o with
  | next u => exact ⟨u, rfl, by simpa [thenDo] using h.symm⟩
  | fault r => simp [thenDo] at h
  | refused r => simp [thenDo] at h

theorem emitPrefix_next (h : emitPrefix s = .next t) : ∃ c, s.dict.find s.p = some c ∧ t = emitData c s := by
  unfold emitPrefix at h
  split at h
  · cases h; exact ⟨_, ‹_›, rfl⟩
  · cases h

/-- The outcomes of `LzwPixel` (R55): first pixel, the match extends, the match breaks. -/
theorem lzwPixel_next {v : Nat} (h : lzwPixel v s = .next t) :
    (s.p = [] ∧ t = s.setP [operandByte v]) ∨
      (s.p ≠ [] ∧ s.dict.has (s.p ++ [operandByte v]) = true ∧ t = s.setP (s.p ++ [operandByte v])) ∨
      ∃ c, s.p ≠ [] ∧ s.dict.has (s.p ++ [operandByte v]) = false ∧ s.dict.find s.p = some c ∧
        t = (growOrReset (s.p ++ [operandByte v]) (emitData c s)).setP [operandByte v] := by
  unfold lzwPixel at h
  dsimp only at h
  split at h
  · cases h; exact .inl ⟨‹_›, rfl⟩
  split at h
  · cases h; exact .inr (.inl ⟨‹_›, ‹_›, rfl⟩)
  · obtain ⟨u, hu, rfl⟩ := thenDo_next h
    obtain ⟨c, hc, rfl⟩ := emitPrefix_next hu
    exact .inr (.inr ⟨c, ‹_›, by simpa using ‹¬ _ = true›, hc, rfl⟩)

/-- The outcomes of `LzwFinish` (R62). -/
theorem lzwFinish_next (h : lzwFinish s = .next t) :
    (s.p = [] ∧ t = (writeEoi s).setP []) ∨
      ∃ c, s.p ≠ [] ∧ s.dict.find s.p = some c ∧ t = (writeEoi (emitData c s)).setP [] := by
  obtain ⟨u, hu, rfl⟩ := thenDo_next h
  split at hu
  · cases hu; exact .inl ⟨‹_›, rfl⟩
  · obtain ⟨c, hc, rfl⟩ := emitPrefix_next hu
    exact .inr ⟨c, ‹_›, hc, rfl⟩

theorem lzwPixel_frame {v : Nat} (h : lzwPixel v s = .next t) :
    t.phase = s.phase ∧ t.err = s.err ∧ t.mcs = s.mcs ∧ t.inputs = s.inputs ∧ t.cfg = s.cfg := by
  rcases lzwPixel_next h with ⟨-, rfl⟩ | ⟨-, -, rfl⟩ | ⟨c, -, -, -, rfl⟩ <;> simp

theorem lzwFinish_frame (h : lzwFinish s = .next t) :
    t.phase = s.phase ∧ t.err = s.err ∧ t.mcs = s.mcs ∧ t.inputs = s.inputs ∧ t.cfg = s.cfg ∧ t.dict = s.dict ∧
      t.next = s.next := by
  rcases lzwFinish_next h with ⟨-, rfl⟩ | ⟨c, -, -, rfl⟩ <;> simp

/-- The outcomes of `START` (R72). -/
theorem execStart_next {m : Nat} (h : execStart m s = .next t) :
    (s.phase = .error ∧ t = s) ∨ (s.phase = .active ∧ t = raiseError .sequence s) ∨
      (s.phase = .idle ∧ ¬ (2 ≤ m ∧ m ≤ 8) ∧ t = raiseError .badMcs s) ∨
      (s.phase = .idle ∧ 2 ≤ m ∧ m ≤ 8 ∧ t = openSession m s) := by
  unfold execStart at h
  split at h
  · cases h; exact .inl ⟨‹_›, rfl⟩
  · cases h; exact .inr (.inl ⟨‹_›, rfl⟩)
  · split at h
    · rename_i hp hm
      cases h
      obtain ⟨h2, h8⟩ := (mcsLegal_iff m).1 hm
      exact .inr (.inr (.inr ⟨hp, h2, h8, rfl⟩))
    · rename_i hp hm
      cases h
      exact .inr (.inr (.inl ⟨hp, fun hc => hm ((mcsLegal_iff m).2 hc), rfl⟩))

/-- The outcomes of `PIXEL` (R73). -/
theorem execPixel_next {v : Nat} (h : execPixel v s = .next t) :
    (s.phase = .error ∧ t = s) ∨ (s.phase = .idle ∧ t = raiseError .sequence s) ∨
      (s.phase = .active ∧ 2 ^ s.mcs ≤ v ∧ t = raiseError .pixelRange s) ∨
      (s.phase = .active ∧ v < 2 ^ s.mcs ∧ lzwPixel v s = .next t) := by
  unfold execPixel at h
  split at h
  · cases h; exact .inl ⟨‹_›, rfl⟩
  · cases h; exact .inr (.inl ⟨‹_›, rfl⟩)
  · split at h
    · rename_i hp hm
      exact .inr (.inr (.inr ⟨hp, (pixelLegal_iff v s).1 hm, h⟩))
    · rename_i hp hm
      cases h
      exact .inr (.inr (.inl ⟨hp, not_lt.1 fun hc => hm ((pixelLegal_iff v s).2 hc), rfl⟩))

/-- The outcomes of `END` (R74). -/
theorem execEnd_next (h : execEnd s = .next t) :
    (s.phase = .error ∧ t = s) ∨ (s.phase = .idle ∧ t = raiseError .sequence s) ∨
      (s.phase = .active ∧ ∃ u, lzwFinish s = .next u ∧ t = closeSession u) := by
  unfold execEnd at h
  split at h
  · cases h; exact .inl ⟨‹_›, rfl⟩
  · cases h; exact .inr (.inl ⟨‹_›, rfl⟩)
  · exact .inr (.inr ⟨‹_›, thenDo_next h⟩)

/-- A run of the host's machine, one step at a time. -/
theorem core_run_succ (n : Nat) (h : step s = .next t) :
    Host.Core.run Sys2Proof.core (n + 1) s = Host.Core.run Sys2Proof.core n t := by
  have run_succ : ∀ (M : Host.Core) (x y : M.State), M.step x = .next y → M.run (n + 1) x = M.run n y := by
    intro M x y hx
    simp only [Host.Core.run, hx]
  exact run_succ Sys2Proof.core s t h

/-- A run of commands after a run of commands (R40). -/
theorem runInstrs_append (l1 l2 : List Instr) (h : runInstrs l1 s = .next t) :
    runInstrs (l1 ++ l2) s = runInstrs l2 t := by
  induction l1 generalizing s with
  | nil => cases h; rfl
  | cons i l ih =>
    simp only [runInstrs, List.cons_append] at h ⊢
    cases hx : exec i s with
    | next u => simp only [hx] at h ⊢; exact ih h
    | fault r => simp [hx] at h
    | refused r => simp [hx] at h

end Sys2Proof.Machine
end

