-- ==== Sys2Proof/Tests/Slice0.lean ====
section
/-! SUPPORT. The model's own tests: the WellFormed smoke, decoding by words written out from spec/30_encoding.md, single
steps against the vectors of spec/95_test_vectors.md, and for each statement with hypotheses a witness that meets them. -/

namespace Sys2Proof.Tests

open Sys2Proof.Machine

/-! WellFormed (R51): an operand above 255 is refused. -/

theorem test_start_256_ill_formed : (Instr.start 256).wellFormed = false := by decide
theorem test_pixel_256_ill_formed : (Instr.pixel 256).wellFormed = false := by decide
theorem test_operands_at_255_well_formed :
    (Instr.start 255).wellFormed = true ∧ (Instr.pixel 255).wellFormed = true := by decide

/-! Decoding: the words of R47, bit 15 first, and V-ENC-1. -/

theorem test_decode_nop : (decode 0b0000000000000000#16).toOption = some .nop := by decide
theorem test_decode_start : (decode 0b0000000100000010#16).toOption = some (.start 2) := by decide
theorem test_decode_pixel : (decode 0b0000001011111111#16).toOption = some (.pixel 255) := by decide
theorem test_decode_end : (decode 0b0000001100000000#16).toOption = some .endCmd := by decide
theorem test_decode_reset : (decode 0b0000010000000000#16).toOption = some .reset := by decide
theorem test_decode_illegal :
    [0x0001#16, 0x0301#16, 0x0480#16, 0x0500#16, 0xFFFF#16].map (fun w => (decode w).toOption) =
      [none, none, none, none, none] := by decide
theorem test_encode_words :
    [Instr.nop, .start 2, .pixel 255, .endCmd, .reset].map encode =
      [0x0000#16, 0x0102#16, 0x02FF#16, 0x0300#16, 0x0400#16] := by decide
theorem test_table_word : decodeTableWord 16 0x0108 = some (.start 8) := by decide

/-! Small states, written from R72's example and V-CMD-1. -/

/-- After `START 2` from reset (V-CMD-1, group a). -/
def open2 : State :=
  { State.reset with
    phase := .active, mcs := 2, width := 3, next := 6, dict := [([0#8], 0), ([1#8], 1), ([2#8], 2), ([3#8], 3)],
    acc := 4, acclen := 3, out := [2#8] }

/-- After one `PIXEL 1` more. -/
def open2p : State := { open2 with p := [1#8] }

/-- A closed session: the registers of `open2` in `IDLE`. -/
def idle2 : State := { open2 with phase := .idle, acc := 0, acclen := 0 }

/-- An error in `open2`: V-ERR-8. -/
def error2 : State := { open2 with phase := .error, err := .pixelRange }

/-- A full table: `NEXT = 4096`, `WIDTH = 12`. -/
def full2 : State := { open2p with next := 4096, width := 12 }

/-- 254 raw bytes pending and 7 bits held. -/
def brim2 : State := { open2p with acc := 0x7F, acclen := 7, sbcnt := 254 }

/-- The words before the block. -/
def sending (s : State) (ws : List Input) : State := { s with inputs := ws }

/-! Single steps. -/

/-- V-CMD-1: `START 2` from reset. -/
theorem test_start_2 : nextOf (step (State.reset.withFetchWord 16 0x0102)) = some open2 := by decide +kernel
/-- V-CMD-1, R72: `START 8` puts raw byte `00` into `SBBUF` and holds one bit. -/
theorem test_start_8 : (nextOf (exec (.start 8) State.reset)).map
    (fun t => decide (t.acc = 1 ∧ t.acclen = 1 ∧ pending t = [0#8] ∧ t.next = 258 ∧ t.out = [8#8] ∧
      status t = 0x9801#16)) = some true := by decide +kernel
/-- V-CMD-1: the first `PIXEL 1`. -/
theorem test_pixel_first : nextOf (exec (.pixel 1) open2) = some open2p := by decide +kernel
/-- V-CMD-1: the second `PIXEL 1` writes code (1,3) and inserts `[1,1]`. -/
theorem test_pixel_breaks : (nextOf (exec (.pixel 1) open2p)).map
    (fun t => decide (t.acc = 0xC ∧ t.acclen = 6 ∧ t.next = 7 ∧ t.p = [1#8] ∧ t.dict.find [1#8, 1#8] = some 6 ∧
      t.out = [2#8])) = some true := by decide +kernel
/-- R60: at `NEXT = 4096` the data code (1,12) and `CLEAR` (4,12) are written and a new epoch starts. -/
theorem test_pixel_table_reset : (nextOf (exec (.pixel 1) full2)).map
    (fun t => decide (t.next = 6 ∧ t.width = 3 ∧ t.p = [1#8] ∧ t.dict.length = 4 ∧ t.acclen = 3 ∧ t.acc = 0 ∧
      pending t = [0x0C#8, 0x00#8, 0x02#8])) = some true := by decide +kernel
/-- Two commands: `COMPRESS 2` with no pixels appends `02 01 04 00` (V-DP-1), `STATUS` `0x3200`. -/
theorem test_end_empty : (nextOf (exec .endCmd open2)).map
    (fun t => (t.out, status t == 0x3200#16, t.acclen, t.sbcnt)) =
      some ([2#8, 1#8, 4#8, 0#8], true, 0, 0) := by decide +kernel
/-- R5: the same with `EMIT_EOI = true` appends `02 01 2C 00` (V-DP-1). -/
theorem test_end_empty_eoi : (nextOf (exec .endCmd { open2 with cfg := { emitEoi := true } })).map (·.out) =
    some [2#8, 1#8, 0x2C#8, 0#8] := by decide +kernel
theorem test_nop : nextOf (step (open2.withFetchWord 16 0x0000)) = some open2 := by decide +kernel
/-- V-CMD-1, group c: `RESET` in an open session. -/
theorem test_reset : nextOf (step (open2.withFetchWord 16 0x0400)) = some { State.reset with out := [2#8] } := by
  decide +kernel
/-- V-ERR-7: `START 9` in `ACTIVE` raises `SEQUENCE`, `STATUS` `0x3212`. -/
theorem test_err_priority : (nextOf (exec (.start 9) open2)).map status = some 0x3212#16 := by decide +kernel
/-- V-ERR-8: `PIXEL 4` raises `PIXEL_RANGE`, `STATUS` `0x320E`. -/
theorem test_err_pixel : nextOf (exec (.pixel 4) open2) = some error2 ∧ status error2 = 0x320E#16 := by decide +kernel
/-- V-ERR-11, V-ERR-16: `0x0301` in `IDLE` raises `ILLEGAL_CMD`; `0x0401` in `ERROR` is ignored. -/
theorem test_err_illegal : (nextOf (runWord 0x0301#16 State.reset)).map status = some 0x0006#16 ∧
    nextOf (runWord 0x0401#16 error2) = some error2 := by decide +kernel
/-- V-BP-1, last but one row: 7 held bits and 12 more, and the 255th raw byte completes the sub-block (R66). -/
theorem test_putCode_brim : let t := putCode 4095 12 brim2
    t.acc = 7 ∧ t.acclen = 3 ∧ t.sbcnt = 1 ∧ t.out.length = 257 ∧ t.out[1]? = some 0xFF#8 ∧
      t.out.getLast? = some 0xFF#8 ∧ pending t = [0xFF#8] := by decide +kernel
/-- R75, L1-5: `compress([1,1,1,1], 2)` is `02 02 8C 03 00`. -/
theorem test_compress : compress Config.block 2 [1#8, 1#8, 1#8, 1#8] = some [2#8, 2#8, 0x8C#8, 3#8, 0#8] := by
  decide +kernel
/-- R70 by hand: codes (4,3) (1,3) (6,3) (1,3) are 12 bits, `8C 03`. -/
theorem test_framed : framed 2 [(4, 3), (1, 3), (6, 3), (1, 3)] = [2#8, 2#8, 0x8C#8, 3#8, 0#8] := by decide +kernel
/-- V-DP-4: the codes of `[0,0,0,0,0,0]`, with `EOI` at 4 bits. -/
theorem test_session_codes : sessionCodes true 2 [0#8, 0#8, 0#8, 0#8, 0#8, 0#8] =
    [(4, 3), (0, 3), (6, 3), (7, 3), (5, 4)] := by decide +kernel

/-! The host. -/

/-- R51: case, blanks, a comment and a hexadecimal operand. -/
theorem test_assemble_line : (assembleLine
    [' ', 's', 'T', 'a', 'R', 't', ' ', '0', 'x', '0', 'F', ' ', ';', 'x']).toOption = some [.send 0x010F#16] := by
  decide +kernel
/-- R51: an operand above 255 is an assembly error; `.word` writes any word. -/
theorem test_assemble_range : (assembleLine ['P', 'I', 'X', 'E', 'L', ' ', '2', '5', '6']).toOption = none ∧
    (assembleLine ['.', 'w', 'o', 'r', 'd', ' ', '0', 'x', '0', '4', '0', '1']).toOption =
      some [.send 0x0401#16] := by decide +kernel
/-- R39: a take removes the byte from the host's view; a read returns `STATUS`. -/
theorem test_platform : (match Platform.reset.run [.send 0x0102#16, .rdStatus, .takeByte, .takeByte] with
    | .next q => some (q.taken, q.channel, q.reads)
    | .fault _ => none
    | .refused _ => none) = some ([2#8], [], [0x3201#16]) := by decide +kernel

/-- Log entries 10 and 12: a take from an empty channel changes nothing; a line with only a comment is no action. -/
theorem test_model_choices : Platform.act .takeByte Platform.reset = .next Platform.reset ∧
    (assembleLine [' ', ';', 'x']).toOption = some [] := ⟨rfl, by decide +kernel⟩

/-! Witnesses: states that meet the hypotheses of the statements. -/

/-- A command that answers a next state answers one. -/
theorem next_of_isSome {o : Host.Outcome State Fault Refusal} (h : (nextOf o).isSome = true) : ∃ t, o = .next t := by
  cases o with
  | next t => exact ⟨t, rfl⟩
  | fault r => simp [nextOf] at h
  | refused r => simp [nextOf] at h

/-- The next state, where it is known. -/
theorem next_of_eq {o : Host.Outcome State Fault Refusal} {t : State} (h : nextOf o = some t) : o = .next t := by
  cases o with
  | next u => simpa [nextOf] using h
  | fault r => simp [nextOf] at h
  | refused r => simp [nextOf] at h

theorem open2_epoch : open2.Epoch where
  mcsRange := by decide
  nextRange := by decide
  codes := by decide
  singles := by decide
  keysDistinct := by decide
  prefixClosed := Dict.singles_prefixClosed (n := 4) (by decide)
  widthRange := by decide

theorem witness_active_inv : open2.Inv ∧ open2.phase = .active ∧ open2.inputs = [] where
  left :=
    { history := .inr open2_epoch
      session := fun _ => ⟨open2_epoch, by decide +kernel⟩
      prefixKey := .inl rfl
      packer := by decide
      framer := ⟨by decide, by simp [open2, State.reset]⟩
      errors := by simp [open2, State.reset] }
  right := ⟨rfl, rfl⟩

theorem witness_active_prefix_inv : open2p.Inv ∧ open2p.phase = .active ∧ open2p.p ≠ [] where
  left :=
    { history := .inr (open2_epoch.congr rfl rfl rfl (by decide))
      session := fun _ => ⟨open2_epoch.congr rfl rfl rfl (by decide), by decide +kernel⟩
      prefixKey := .inr (by decide)
      packer := by decide
      framer := ⟨by decide, by simp [open2p, open2, State.reset]⟩
      errors := by simp [open2p, open2, State.reset] }
  right := ⟨rfl, by decide⟩

theorem witness_idle_inv : idle2.Inv ∧ idle2.phase = .idle where
  left :=
    { history := .inr (open2_epoch.congr rfl rfl rfl (by decide))
      session := fun h => by cases h
      prefixKey := .inl rfl
      packer := by decide
      framer := ⟨by decide, by simp [idle2, open2, State.reset]⟩
      errors := by simp [idle2, open2, State.reset] }
  right := rfl

theorem witness_error_inv : error2.Inv ∧ error2.phase = .error where
  left :=
    { history := .inr (open2_epoch.congr rfl rfl rfl (by decide))
      session := fun h => by cases h
      prefixKey := .inl rfl
      packer := by decide
      framer := ⟨by decide, by simp [error2, open2, State.reset]⟩
      errors := by simp [error2] }
  right := rfl

/-- StepRunsTheDecodedCommand: each clause's hypotheses. -/
theorem witness_step_clauses :
    ((sending open2 [.word 0x0201#16]).inputs = .word 0x0201#16 :: [] ∧
        (decode 0x0201#16).toOption = some (.pixel 1)) ∧
      ((sending open2 [.word 0x0500#16]).inputs = .word 0x0500#16 :: [] ∧ (decode 0x0500#16).toOption = none) ∧
      (sending open2 [.hardwareReset]).inputs = .hardwareReset :: [] ∧ open2.inputs = [] ∧
      decodeTableWord 16 0x0300 = some .endCmd := by decide

/-- StepOnlyAppendsToTheOutput, DictionaryStaysCanonical: a step from a state that meets the invariant answers a next
state. -/
theorem witness_step_next : ∃ t, step open2 = .next t := ⟨open2, rfl⟩

/-- RegistersAfterReset: each of the three ways to a state after reset. -/
theorem witness_after_reset : (∃ t, exec .reset open2 = .next t) ∧
    ∃ t, (sending open2 [.hardwareReset]).inputs = .hardwareReset :: [] ∧
      step (sending open2 [.hardwareReset]) = .next t := ⟨⟨_, rfl⟩, _, rfl, rfl⟩

/-- NopHasNoEffect, last clause: the words `0x0001` and `0x00FF`. -/
theorem witness_not_nop : (0x0001#16).toNat / 256 = 0 ∧ 0x0001#16 ≠ 0x0000#16 ∧ (0x00FF#16).toNat / 256 = 0 ∧
    0x00FF#16 ≠ 0x0000#16 := by decide

/-- IllegalWordsRaiseIllegalCmd, at the edges of the illegal words. -/
theorem witness_illegal : illegalNumber 0x0001#16 ∧ illegalNumber 0x00FF#16 ∧ illegalNumber 0x0301#16 ∧
    illegalNumber 0x0401#16 ∧ illegalNumber 0x04FF#16 ∧ illegalNumber 0x0500#16 ∧ illegalNumber 0xFFFF#16 := by
  unfold illegalNumber; decide

/-- The phases of the error statements, and operands at the edges of their ranges. -/
theorem witness_error_operands :
    (idle2.phase = .idle ∧ ((1 < 2 ∨ 8 < 1) ∧ (9 < 2 ∨ 8 < 9))) ∧ (open2.phase = .active ∧ 2 ^ open2.mcs ≤ 4) := by
  decide

/-- ErrorChecksRunInOrder: each clause's hypotheses, `START 9` in `ACTIVE` among them. -/
theorem witness_error_order :
    (error2.phase = .error ∧ 0x0401#16 ≠ 0x0400#16) ∧
      (open2.phase ≠ .error ∧ firstError 0x0109#16 open2 = some .sequence ∧
        firstError 0x0301#16 open2 = some .illegalCmd ∧ firstError 0x0204#16 open2 = some .pixelRange ∧
        firstError 0x0101#16 idle2 = some .badMcs) ∧
      firstError 0x0203#16 open2 = none ∧ firstError 0x0108#16 idle2 = none := by decide

/-- ErrorsArePrecise. -/
theorem witness_error_raised : open2.phase ≠ .error ∧
    ∃ t, runWord 0x0204#16 open2 = .next t ∧ t.phase = .error :=
  ⟨by decide, error2, next_of_eq (by decide +kernel), rfl⟩

/-- OnlyResetLeavesError: an ignored word, no input, and both ways out. -/
theorem witness_error_steps :
    ((sending error2 [.word 0x0401#16]).inputs.head? ≠ some .hardwareReset ∧
        (sending error2 [.word 0x0401#16]).inputs.head? ≠ some (.word 0x0400#16)) ∧
      (error2.inputs.head? ≠ some .hardwareReset ∧ error2.inputs.head? ≠ some (.word 0x0400#16)) ∧
      (sending error2 [.hardwareReset]).inputs.head? = some .hardwareReset ∧
      (sending error2 [.word 0x0400#16]).inputs.head? = some (.word 0x0400#16) := by decide

/-- PhaseTransitions: a step that changes the phase. -/
theorem witness_phase_changes : ∃ t, step (sending error2 [.hardwareReset]) = .next t ∧
    t.phase ≠ (sending error2 [.hardwareReset]).phase := ⟨_, rfl, by decide⟩

/-- StartOpensASession, SessionOutputIsTheClosedForm: both ends of the range of `m`, and pixels at the alphabet's end. -/
theorem witness_start : idle2.phase = .idle ∧ (2 ≤ 2 ∧ 2 ≤ 8) ∧ (2 ≤ 8 ∧ 8 ≤ 8) ∧
    (∀ v ∈ [0#8, 3#8], v.toNat < 2 ^ 2) := by decide

/-- PixelsThatWriteNoCode: a first pixel, and one that extends the match. -/
theorem witness_silent_pixels :
    (open2.phase = .active ∧ 3 < 2 ^ open2.mcs ∧ open2.p = []) ∧
      ({ open2p with dict := open2p.dict ++ [([1#8, 1#8], 6)], next := 7 } : State).dict.has ([1#8] ++ [1#8]) = true ∧
      open2p.phase = .active ∧ 1 < 2 ^ open2p.mcs ∧ open2p.p ≠ [] := by decide

/-- BreakingPixelInsertsTheString. -/
theorem witness_breaking_pixel : open2p.phase = .active ∧ 1 < 2 ^ open2p.mcs ∧ open2p.p ≠ [] ∧
    open2p.dict.has (open2p.p ++ [BitVec.ofNat 8 1]) = false ∧ open2p.dict.find open2p.p = some 1 ∧
    open2p.next < 4096 := by decide

/-- BreakingPixelResetsTheFullTable. -/
theorem witness_full_table : full2.phase = .active ∧ 1 < 2 ^ full2.mcs ∧ full2.p ≠ [] ∧
    full2.dict.has (full2.p ++ [BitVec.ofNat 8 1]) = false ∧ full2.dict.find full2.p = some 1 ∧
    full2.next = 4096 ∧ full2.width = 12 := by decide

/-- CommandFrames, BytesEachCommandAppends: each command answers a next state. -/
theorem witness_commands_complete : (∃ t, exec .nop open2 = .next t) ∧ (∃ t, exec .reset open2 = .next t) ∧
    (∃ t, exec (.start 2) idle2 = .next t) ∧ (∃ t, exec (.pixel 1) open2p = .next t) ∧
    ∃ t, exec .endCmd open2p = .next t :=
  ⟨⟨_, rfl⟩, ⟨_, rfl⟩, next_of_isSome (by decide +kernel), next_of_isSome (by decide +kernel),
    next_of_isSome (by decide +kernel)⟩

/-- InsertEntryAddsOneString. -/
theorem witness_insert : open2.dict.has [1#8, 1#8] = false ∧ open2.next < 4096 := by decide

/-- PutCodeAppendsTheCodeBits, RawByteSendsFullSubBlocks: at the edges, 7 bits held, 254 bytes pending, 12 bits. -/
theorem witness_putCode : brim2.acclen ≤ 7 ∧ brim2.acc < 2 ^ brim2.acclen ∧ brim2.sbcnt ≤ 254 ∧
    brim2.sbbuf.length = 255 ∧ 3 ≤ 12 ∧ 12 ≤ 12 ∧ 4095 < 2 ^ 12 ∧ brim2.sbcnt = 254 ∧ open2.sbcnt < 254 ∧
    open2.sbbuf.length = 255 := by decide +kernel

/-- CodesAreUniqueAndNotReserved. -/
theorem witness_code : open2.dict.find [3#8] = some 3 := by decide

/-- OpenSessionOutputIsFullSubBlocks: a run that answers a next state. -/
theorem witness_session_runs : ∃ t, runInstrs (.start 2 :: [1#8].map fun v => .pixel v.toNat) idle2 = .next t :=
  next_of_isSome (by decide +kernel)

/-- SessionsAreIndependent: two states between sessions that differ in bits held, bytes pending and output. -/
theorem witness_two_sessions :
    let other : State := { idle2 with acc := 1, acclen := 1, sbcnt := 3, out := [7#8] }
    idle2.Inv ∧ other.Inv ∧ idle2.phase = .idle ∧ other.phase = .idle ∧ idle2.cfg = other.cfg := by
  obtain ⟨h, hp⟩ := witness_idle_inv
  refine ⟨h, ?_, hp, hp, rfl⟩
  exact
    { history := .inr (open2_epoch.congr rfl rfl rfl (by decide))
      session := fun h => by cases h
      prefixKey := .inl rfl
      packer := by decide
      framer := ⟨by decide, h.framer.2⟩
      errors := h.errors }

/-- TakenBytesAreTheFirstOfTheChannel: actions that run, and a take, with a byte to take and without, on a platform no run
reaches. -/
theorem witness_platform : (∃ q, Platform.reset.run [.send 0x0102#16, .takeByte] = .next q) ∧
    (∃ q, ([] : List Byte) <+: open2p.out ∧ Platform.act .takeByte ⟨open2p, [], []⟩ = .next q) ∧
    ∃ q, [2#8] <+: open2p.out ∧ Platform.act .takeByte ⟨open2p, [2#8], [0x0000#16]⟩ = .next q :=
  ⟨⟨_, rfl⟩, ⟨_, by decide, rfl⟩, _, by decide, rfl⟩

/-- PseudoCommandsAssembleToTheirExpansions, first clause: `Run 255, 0x100`. -/
theorem witness_pseudo_line : (['R', 'u', 'n'].map Char.toLower, Mnemonic.run) ∈ mnemonics ∧
    ';' ∉ ['2', '5', '5', ',', ' ', '0', 'x', '1', '0', '0'] ∧
    operands ['2', '5', '5', ',', ' ', '0', 'x', '1', '0', '0'] = .ok [255, 256] :=
  ⟨by decide, by decide, rfl⟩

/-- PseudoCommandsAssembleToTheirExpansions, AssembledCommandsDecodeBack: operands at the edge. -/
theorem witness_operands : 255 ≤ 255 ∧ (∀ x ∈ [0, 255], x ≤ 255) ∧ 255 < 256 ∧
    ∀ n, Instr.endCmd = .start n ∨ Instr.endCmd = .pixel n → n ≤ 255 := by simp

end Sys2Proof.Tests
end

/-! The family of 10_state.md: the invariant, what a step keeps of it, and what it says of the registers. -/

namespace Sys2Proof.Machine

variable {s t : State}

/-! What one step can do. -/

theorem step_of_no_input (h : s.inputs = []) : step s = .next s := by
  simp only [step, fetch, h, await]

theorem step_of_input {i : Input} {rest : List Input} (h : s.inputs = i :: rest) :
    step s = runInput i (s.setInputs rest) := by
  simp only [step, fetch, h]

/-- The outcomes of a step (R40, R48, R95): nothing to take, the reset input, a command, an illegal word. -/
theorem step_next (h : step s = .next t) :
    t = s ∨ (∃ rest, s.inputs = .hardwareReset :: rest ∧ t = resetState (s.setInputs rest)) ∨
      ∃ w rest, s.inputs = .word w :: rest ∧
        ((∃ i, decode w = .ok i ∧ exec i (s.setInputs rest) = .next t) ∨
          (∃ e, decode w = .error e) ∧ execIllegal (s.setInputs rest) = .next t) := by
  cases hi : s.inputs with
  | nil =>
    rw [step_of_no_input hi] at h
    cases h; exact .inl rfl
  | cons i rest =>
    rw [step_of_input hi] at h
    cases i with
    | hardwareReset => cases h; exact .inr (.inl ⟨rest, rfl, rfl⟩)
    | word w =>
      refine .inr (.inr ⟨w, rest, rfl, ?_⟩)
      simp only [runInput, runWord] at h
      cases hd : decode w with
      | ok i => rw [hd] at h; exact .inl ⟨i, rfl, h⟩
      | error e => rw [hd] at h; exact .inr ⟨⟨e, rfl⟩, h⟩

/-- The outcomes of an illegal word (R83, R89). -/
theorem execIllegal_next (h : execIllegal s = .next t) :
    (s.phase = .error ∧ t = s) ∨ (s.phase ≠ .error ∧ t = raiseError .illegalCmd s) := by
  unfold execIllegal at h
  split at h <;> cases h
  · exact .inl ⟨‹_›, rfl⟩
  · exact .inr ⟨by simp_all, rfl⟩
  · exact .inr ⟨by simp_all, rfl⟩

/-! What the invariant says of an open session, and how a session's operations keep it. -/

/-- Items 1 to 4, 6 and 7 of R28: what an open session's registers meet, whatever `P` is. -/
structure State.Coding (s : State) : Prop where
  epoch : s.Epoch
  width : s.width = min maxCodeWidth (bitlen (s.next - 1))
  packed : Packed s
  framed : Framed s

theorem State.Inv.coding (h : s.Inv) (ha : s.phase = .active) : s.Coding :=
  ⟨(h.session ha).1, (h.session ha).2, h.packer, h.framer⟩

theorem State.Inv.err_of_ne_error (h : s.Inv) (hp : s.phase ≠ .error) : s.err = .noError :=
  not_not.1 fun he => hp (h.errors.2 he)

theorem State.Coding.inv (h : s.Coding) (ha : s.phase = .active) (he : s.err = .noError)
    (hp : s.p = [] ∨ s.dict.has s.p = true) : s.Inv where
  history := .inr h.epoch
  session _ := ⟨h.epoch, h.width⟩
  prefixKey := hp
  packer := h.packed
  framer := h.framed
  errors := by simp [ha, he]

/-- The width of the first code of an epoch (R54, R28 item 4). -/
theorem succ_eq_min_bitlen {m : Nat} (hm : 2 ≤ m ∧ m ≤ 8) :
    m + 1 = min maxCodeWidth (bitlen (2 ^ m + 2 - 1)) := by
  have h4 := four_le_two_pow hm.1
  have hb : bitlen (2 ^ m + 2 - 1) = m + 1 := bitlen_eq (by omega) (by rw [pow_succ]; omega)
  rw [hb, show maxCodeWidth = 12 from rfl]
  omega

/-- `CLEAR` and `EOI` fit every width above `MCS` (R65). -/
theorem two_pow_succ_lt {m w : Nat} (hm : 2 ≤ m) (hw : m + 1 ≤ w) : 2 ^ m + 1 < 2 ^ w := by
  have h4 := four_le_two_pow hm
  have : 2 ^ (m + 1) ≤ 2 ^ w := Nat.pow_le_pow_right (by decide) hw
  rw [pow_succ] at this
  omega

/-- `DictInit` leaves an open session's registers in order (R54). -/
theorem dictInit_coding {m : Nat} (hm : 2 ≤ m ∧ m ≤ 8) (hs : s.mcs = m) (hp : Packed s) (hf : Framed s) :
    (dictInit m s).Coding :=
  ⟨dictInit_epoch s hm hs, succ_eq_min_bitlen hm, hp, hf⟩

/-- An open session rests on its registers alone, not on `P`, `PHASE`, `ERR` or the channels. -/
theorem State.Coding.congr (h : s.Coding) (h1 : t.mcs = s.mcs) (h2 : t.next = s.next) (h3 : t.dict = s.dict)
    (h4 : t.width = s.width) (hp : Packed t) (hf : Framed t) : t.Coding where
  epoch := h.epoch.congr h1 h2 h3 (h4 ▸ h.epoch.widthRange)
  width := by rw [h4, h2, h.width]
  packed := hp
  framed := hf

theorem State.Coding.setP (h : s.Coding) (q : List Byte) : (s.setP q).Coding :=
  h.congr rfl rfl rfl rfl h.packed h.framed

/-- A code that fits its width may be written at any time (R65). -/
theorem State.Coding.putCode {c w : Nat} (h : s.Coding) (hc : c < 2 ^ w) : (putCode c w s).Coding :=
  h.congr (by simp) (by simp) (by simp) (by simp) (putCode_packed c w h.framed h.packed hc)
    (putCode_framed c w h.framed h.packed)

/-- `START` opens a session (R72). -/
theorem openSession_coding {m : Nat} (hm : 2 ≤ m ∧ m ≤ 8) (hb : s.sbbuf.length = maxSubblock) :
    (openSession m s).Coding := by
  have hinit : (dictInit m ((s.setMcs m).setAcc 0 |>.setAcclen 0 |>.setSbcnt 0)).Coding :=
    dictInit_coding hm rfl (by simp [Packed]) (by simp [Framed, hb])
  have hclear : 2 ^ m < 2 ^ (m + 1) := Nat.pow_lt_pow_right (by decide) (by omega)
  have hput := (hinit.congr (t := outByte (operandByte m)
    (((dictInit m (s.setMcs m)).setP []).setAcc 0 |>.setAcclen 0 |>.setSbcnt 0)) rfl rfl rfl rfl
    hinit.packed hinit.framed).putCode hclear
  exact hput.congr rfl rfl rfl rfl hput.packed hput.framed

/-- What the last codes of an epoch are written from: the width may already be one ahead of `NEXT` (R57), and the
reserved codes fit it. -/
structure State.Ready (s : State) : Prop where
  epoch : s.Epoch
  width : s.mcs + 1 ≤ s.width
  packed : Packed s
  framed : Framed s

theorem State.Coding.ready (h : s.Coding) : s.Ready :=
  ⟨h.epoch, h.epoch.mcs_lt_width h.width, h.packed, h.framed⟩

theorem State.Coding.emitData_ready {c : Nat} (h : s.Coding) (hc : c < s.next) : (emitData c s).Ready := by
  obtain ⟨he, hp, hf, hw⟩ := emitData_epoch h.epoch h.width h.packed h.framed hc
  have hm := h.ready.width
  exact ⟨he, by rw [hw, emitData_mcs]; split <;> omega, hp, hf⟩

/-- `CLEAR` and `EOI` may be written (R60, R62). -/
theorem State.Ready.putCode {c : Nat} (h : s.Ready) (hc : c ≤ eoiCode s) : (putCode c s.width s).Ready where
  epoch := h.epoch.congr (by simp) (by simp) (by simp) (by simpa using h.epoch.widthRange)
  width := by simpa using h.width
  packed := putCode_packed _ _ h.framed h.packed (hc.trans_lt (two_pow_succ_lt h.epoch.mcsRange.1 h.width))
  framed := putCode_framed _ _ h.framed h.packed

theorem State.Ready.setP (h : s.Ready) (q : List Byte) : (s.setP q).Ready :=
  ⟨h.epoch.congr rfl rfl rfl h.epoch.widthRange, h.width, h.packed, h.framed⟩

theorem State.Ready.tableReset (h : s.Ready) : (tableReset s).Coding := by
  have hput := h.putCode (c := clearCode s) (Nat.le_succ _)
  exact dictInit_coding h.epoch.mcsRange (by simp) hput.packed hput.framed

theorem State.Ready.writeEoi (h : s.Ready) : (writeEoi s).Ready := by
  unfold Machine.writeEoi
  split
  · exact h.putCode le_rfl
  · exact h

/-- After the pending string's code, the novel string gets its own or the table is reset, and the session's registers
are in order again (R55 to R60). -/
theorem State.Coding.growOrReset {v : Byte} {c : Nat} (h : s.Coding) (hc : s.dict.find s.p = some c)
    (hn : s.dict.has (s.p ++ [v]) = false) : (growOrReset (s.p ++ [v]) (emitData c s)).Coding := by
  obtain ⟨he, hp, hf, hw⟩ := emitData_epoch h.epoch h.width h.packed h.framed (h.epoch.find_lt hc)
  unfold Machine.growOrReset
  split
  · rename_i hspace
    rw [emitData_next] at hspace
    have hkey : s.dict.has s.p = true := by simp [Dict.has, hc]
    have hnext : 2 ≤ s.next := by have := h.epoch.nextRange; omega
    refine ⟨insertEntry_epoch he (by simpa using hkey) (by simpa using hn) (by simpa using hspace), ?_, hp, hf⟩
    rw [insertEntry_width, hw, insertEntry_next, emitData_next, Nat.add_sub_cancel]
    exact width_step hnext h.width hspace
  · exact (h.emitData_ready (h.epoch.find_lt hc)).tableReset

/-! The commands keep the invariant. -/

/-- Whether an epoch has been opened rests on `MCS`, `WIDTH`, `NEXT` and `D` alone. -/
theorem history_congr (h : s.Blank ∨ s.Epoch) (h1 : t.mcs = s.mcs) (h2 : t.width = s.width) (h3 : t.next = s.next)
    (h4 : t.dict = s.dict) : t.Blank ∨ t.Epoch :=
  h.imp (fun b => ⟨h1.trans b.mcs, h2.trans b.width, h3.trans b.next, h4.trans b.dict⟩)
    fun e => e.congr h1 h3 h4 (h2 ▸ e.widthRange)

theorem raiseError_inv {e : ErrCode} (h : s.Inv) (he : e ≠ .noError) : (raiseError e s).Inv where
  history := history_congr h.history rfl rfl rfl rfl
  session ha := by simp at ha
  prefixKey := h.prefixKey
  packer := h.packer
  framer := h.framer
  errors := by simpa using he

/-- A reset needs of the state before it only the places of `SBBUF` (R30, R95). -/
theorem resetState_inv (hb : s.sbbuf.length = maxSubblock) : (resetState s).Inv where
  history := .inl ⟨rfl, rfl, rfl, rfl⟩
  session ha := by cases ha
  prefixKey := .inl rfl
  packer := by simp [resetState]
  framer := by simp [hb, resetState]
  errors := by simp [resetState]

/-- What waits before the block is no part of the invariant (R14). -/
theorem State.Inv.setInputs {ins : List Input} (h : s.Inv) : (s.setInputs ins).Inv where
  history := history_congr h.history rfl rfl rfl rfl
  session ha := ⟨(h.session ha).1.congr rfl rfl rfl (h.session ha).1.widthRange, (h.session ha).2⟩
  prefixKey := h.prefixKey
  packer := h.packer
  framer := h.framer
  errors := h.errors

theorem openSession_inv {m : Nat} (h : s.Inv) (hi : s.phase = .idle) (hm : 2 ≤ m ∧ m ≤ 8) :
    (openSession m s).Inv := by
  have herr := h.err_of_ne_error (by simp [hi])
  exact (openSession_coding hm h.framer.2).inv rfl (by simp [openSession, herr]) (.inl (by simp [openSession]))

/-- `LzwPixel` keeps the invariant: `P` becomes the string where it is a key, else the symbol (R55, R61). -/
theorem lzwPixel_inv {v : Nat} (h : s.Inv) (ha : s.phase = .active) (hv : v < alphabetSize s)
    (ht : lzwPixel v s = .next t) : t.Inv := by
  have hc := h.coding ha
  have hp : t.Coding ∧ t.dict.has t.p = true := by
    rcases lzwPixel_next ht with ⟨-, rfl⟩ | ⟨-, hk, rfl⟩ | ⟨c, -, hn, hf, rfl⟩
    · exact ⟨hc.setP _, hc.epoch.has_symbol hv⟩
    · exact ⟨hc.setP _, hk⟩
    · have hg := hc.growOrReset hf hn
      exact ⟨hg.setP _, hg.epoch.has_symbol (by simpa [alphabetSize] using hv)⟩
  obtain ⟨hphase, herr, -⟩ := lzwPixel_frame ht
  exact hp.1.inv (hphase.trans ha) (herr.trans (h.err_of_ne_error (by simp [ha]))) (.inr hp.2)

/-- The last codes of a session (R62). -/
theorem State.Coding.lzwFinish_ready (h : s.Coding) (ht : lzwFinish s = .next t) : t.Ready ∧ t.p = [] := by
  rcases lzwFinish_next ht with ⟨-, rfl⟩ | ⟨c, -, hf, rfl⟩
  · exact ⟨h.ready.writeEoi.setP _, rfl⟩
  · exact ⟨(h.emitData_ready (h.epoch.find_lt hf)).writeEoi.setP _, rfl⟩

/-- `END` closes a session with nothing held or pending; the dictionary stays (R74). -/
theorem closeSession_inv (h : s.Ready) (hp : s.p = []) (he : s.err = .noError) : (closeSession s).Inv where
  history := .inr (h.epoch.congr (by simp [closeSession]) (by simp [closeSession]) (by simp [closeSession])
    (by simpa [closeSession] using h.epoch.widthRange))
  session ha := by cases ha
  prefixKey := .inl (by simpa [closeSession] using hp)
  packer := by simp [closeSession, flushBits]
  framer := flushFrame_framed (flushBits_framed h.framed)
  errors := by simp [closeSession, he]

/-- Every command keeps the invariant (R28). -/
theorem exec_inv {i : Instr} (h : s.Inv) (ht : exec i s = .next t) : t.Inv := by
  cases i with
  | nop => cases ht; exact h
  | reset => cases ht; exact resetState_inv h.framer.2
  | start m =>
    rcases execStart_next ht with ⟨-, rfl⟩ | ⟨-, rfl⟩ | ⟨-, -, rfl⟩ | ⟨hi, h2, h8, rfl⟩
    · exact h
    · exact raiseError_inv h (by decide)
    · exact raiseError_inv h (by decide)
    · exact openSession_inv h hi ⟨h2, h8⟩
  | pixel v =>
    rcases execPixel_next ht with ⟨-, rfl⟩ | ⟨-, rfl⟩ | ⟨-, -, rfl⟩ | ⟨ha, hv, hl⟩
    · exact h
    · exact raiseError_inv h (by decide)
    · exact raiseError_inv h (by decide)
    · exact lzwPixel_inv h ha hv hl
  | endCmd =>
    rcases execEnd_next ht with ⟨-, rfl⟩ | ⟨-, rfl⟩ | ⟨ha, u, hl, rfl⟩
    · exact h
    · exact raiseError_inv h (by decide)
    · obtain ⟨hready, hp⟩ := (h.coding ha).lzwFinish_ready hl
      obtain ⟨-, herr, -⟩ := lzwFinish_frame hl
      exact closeSession_inv hready hp (herr.trans (h.err_of_ne_error (by simp [ha])))

theorem execIllegal_inv (h : s.Inv) (ht : execIllegal s = .next t) : t.Inv := by
  rcases execIllegal_next ht with ⟨-, rfl⟩ | ⟨-, rfl⟩
  · exact h
  · exact raiseError_inv h (by decide)

/-- Whatever the input, a step keeps the invariant (R28). -/
theorem step_inv (h : s.Inv) (ht : step s = .next t) : t.Inv := by
  rcases step_next ht with rfl | ⟨rest, -, rfl⟩ | ⟨w, rest, -, ⟨i, -, hx⟩ | ⟨-, hx⟩⟩
  · exact h
  · exact resetState_inv h.framer.2
  · exact exec_inv h.setInputs hx
  · exact execIllegal_inv h.setInputs hx

/-! Every step from a state that meets the invariant answers a next state. -/

/-- `D(P)` is read only where it is defined (R9, R28 item 5). -/
theorem State.Inv.emitPrefix_completes (h : s.Inv) (hp : s.p ≠ []) : ∃ t, emitPrefix s = .next t := by
  obtain ⟨c, hc⟩ := Dict.find_of_has (h.prefixKey.resolve_left hp)
  exact ⟨emitData c s, by simp only [emitPrefix, hc]⟩

theorem thenDo_completes {o : Host.Outcome State Fault Refusal} {f : State → State} (h : ∃ u, o = .next u) :
    ∃ t, thenDo o f = .next t := by
  obtain ⟨u, rfl⟩ := h
  exact ⟨f u, rfl⟩

theorem State.Inv.lzwPixel_completes (h : s.Inv) (v : Nat) : ∃ t, lzwPixel v s = .next t := by
  unfold lzwPixel
  dsimp only
  split
  · exact ⟨_, rfl⟩
  split
  · exact ⟨_, rfl⟩
  · exact thenDo_completes (h.emitPrefix_completes ‹_›)

theorem State.Inv.lzwFinish_completes (h : s.Inv) : ∃ t, lzwFinish s = .next t := by
  unfold lzwFinish
  refine thenDo_completes ?_
  split
  · exact ⟨_, rfl⟩
  · exact h.emitPrefix_completes ‹_›

theorem State.Inv.exec_completes (h : s.Inv) (i : Instr) : ∃ t, exec i s = .next t := by
  cases i with
  | nop => exact ⟨_, rfl⟩
  | reset => exact ⟨_, rfl⟩
  | start m =>
    change ∃ t, execStart m s = .next t
    unfold execStart
    split
    · exact ⟨_, rfl⟩
    · exact ⟨_, rfl⟩
    · split <;> exact ⟨_, rfl⟩
  | pixel v =>
    change ∃ t, execPixel v s = .next t
    unfold execPixel
    split
    · exact ⟨_, rfl⟩
    · exact ⟨_, rfl⟩
    · split
      · exact h.lzwPixel_completes v
      · exact ⟨_, rfl⟩
  | endCmd =>
    change ∃ t, execEnd s = .next t
    unfold execEnd
    split
    · exact ⟨_, rfl⟩
    · exact ⟨_, rfl⟩
    · exact thenDo_completes h.lzwFinish_completes

theorem execIllegal_completes (s : State) : ∃ t, execIllegal s = .next t := by
  unfold execIllegal
  split <;> exact ⟨_, rfl⟩

theorem State.Inv.runWord_completes (h : s.Inv) (w : CmdWord) : ∃ t, runWord w s = .next t := by
  unfold runWord
  split
  · exact h.exec_completes _
  · exact execIllegal_completes s

theorem State.Inv.step_completes (h : s.Inv) : ∃ t, step s = .next t := by
  cases hi : s.inputs with
  | nil => exact ⟨s, step_of_no_input hi⟩
  | cons i rest =>
    rw [step_of_input hi]
    cases i with
    | hardwareReset => exact ⟨_, rfl⟩
    | word w => exact h.setInputs.runWord_completes w

/-! What the invariant says of the registers. -/

/-- The dictionary is canonical in every phase (R21). -/
theorem State.Inv.dict_wf (h : s.Inv) : s.dict.wf := by
  rcases h.history with hb | he
  · rw [hb.dict]; exact ⟨.nil, .nil⟩
  · exact he.dict_wf

theorem State.Inv.mcs_legal (h : s.Inv) : s.mcs = 0 ∨ 2 ≤ s.mcs ∧ s.mcs ≤ 8 :=
  h.history.imp (·.mcs) (·.mcsRange)

theorem State.Inv.width_legal (h : s.Inv) : s.width = 0 ∨ 3 ≤ s.width ∧ s.width ≤ 12 :=
  h.history.imp (·.width) (·.widthRange)

theorem State.Inv.next_le (h : s.Inv) : s.next ≤ 4096 := by
  rcases h.history with hb | he
  · rw [hb.next]; decide
  · exact he.nextRange.2

theorem State.Inv.code_lt (h : s.Inv) {e : List Byte × Nat} (hm : e ∈ s.dict) : e.2 < s.next := by
  rcases h.history with hb | he
  · simp [hb.dict] at hm
  · exact he.code_lt hm

/-- In the canonical form no code is used twice (R21). -/
theorem Dict.wf.find_inj {d : Dict} {q r : List Byte} {c : Nat} (h : d.wf) (hq : d.find q = some c)
    (hr : d.find r = some c) : r = q := by
  have hnodup : (d.map (·.2)).Nodup := h.1.imp fun hlt => hlt.ne
  have := List.inj_on_of_nodup_map hnodup (Dict.mem_of_find hr) (Dict.mem_of_find hq) rfl
  exact congrArg (·.1) this

/-- `CLEAR` and `EOI` are the code of no string (R21, R53). -/
theorem State.Epoch.find_ne_reserved (h : s.Epoch) {q : List Byte} {c : Nat} (hf : s.dict.find q = some c) :
    c ≠ 2 ^ s.mcs ∧ c ≠ 2 ^ s.mcs + 1 := by
  have hm : c ∈ s.dict.map (·.2) := List.mem_map_of_mem (f := (·.2)) (Dict.mem_of_find hf)
  rw [h.codes, List.mem_append, List.mem_range, List.mem_range'_1, alphabetSize] at hm
  omega

/-! The `STATUS` word. -/

/-- Or-ing a field below the bits of a word adds it. -/
theorem or_eq_add_of_dvd {x y k : Nat} (hx : 2 ^ k ∣ x) (hy : y < 2 ^ k) : x ||| y = x + y := by
  obtain ⟨a, rfl⟩ := hx
  exact (Nat.two_pow_add_eq_or_of_lt hy a).symm

theorem Phase.code_le (p : Phase) : p.code ≤ 2 := by cases p <;> decide

theorem ErrCode.code_le (e : ErrCode) : e.code ≤ 4 := by cases e <;> decide

/-- The fields of `STATUS` do not overlap (R25, R81). -/
theorem status_toNat (hm : s.mcs < 16) (hw : s.width < 16) :
    (status s).toNat = 4096 * s.width + 256 * s.mcs + 4 * s.err.code + s.phase.code := by
  have hp := s.phase.code_le
  have he := s.err.code_le
  have h1 : s.width <<< 12 ||| s.mcs <<< 8 = 4096 * s.width + 256 * s.mcs := by
    rw [or_eq_add_of_dvd (k := 12)] <;> rw [Nat.shiftLeft_eq] <;> omega
  have h2 : 4096 * s.width + 256 * s.mcs ||| 0 <<< 5 = 4096 * s.width + 256 * s.mcs := by simp
  have h3 : 4096 * s.width + 256 * s.mcs ||| s.err.code <<< 2 =
      4096 * s.width + 256 * s.mcs + 4 * s.err.code := by
    rw [or_eq_add_of_dvd (k := 5)] <;> omega
  have h4 : 4096 * s.width + 256 * s.mcs + 4 * s.err.code ||| s.phase.code =
      4096 * s.width + 256 * s.mcs + 4 * s.err.code + s.phase.code :=
    or_eq_add_of_dvd (k := 2) (by omega) (by omega)
  rw [status, h1, h2, h3, h4, BitVec.toNat_ofNat]
  omega

theorem resetState_status (s : State) : status (resetState s) = 0x0000#16 := by
  simp [status, resetState, Phase.code, ErrCode.code]

/-! The transitions of `PHASE`. -/

/-- How a command changes `PHASE` (R16). -/
theorem exec_phase {i : Instr} (ht : exec i s = .next t) (hc : t.phase ≠ s.phase) :
    (t.phase = .idle ∧ i = .reset) ∨ (s.phase = .idle ∧ t.phase = .active ∧ ∃ m, i = .start m) ∨
      (s.phase = .active ∧ t.phase = .idle ∧ i = .endCmd) ∨ (s.phase ≠ .error ∧ t.phase = .error) := by
  cases i with
  | nop => cases ht; exact absurd rfl hc
  | reset => cases ht; exact .inl ⟨rfl, rfl⟩
  | start m =>
    rcases execStart_next ht with ⟨-, rfl⟩ | ⟨ha, rfl⟩ | ⟨hi, -, rfl⟩ | ⟨hi, -, -, rfl⟩
    · exact absurd rfl hc
    · exact .inr (.inr (.inr ⟨by simp [ha], rfl⟩))
    · exact .inr (.inr (.inr ⟨by simp [hi], rfl⟩))
    · exact .inr (.inl ⟨hi, rfl, m, rfl⟩)
  | pixel v =>
    rcases execPixel_next ht with ⟨-, rfl⟩ | ⟨hi, rfl⟩ | ⟨ha, -, rfl⟩ | ⟨-, -, hl⟩
    · exact absurd rfl hc
    · exact .inr (.inr (.inr ⟨by simp [hi], rfl⟩))
    · exact .inr (.inr (.inr ⟨by simp [ha], rfl⟩))
    · exact absurd (lzwPixel_frame hl).1 hc
  | endCmd =>
    rcases execEnd_next ht with ⟨-, rfl⟩ | ⟨hi, rfl⟩ | ⟨ha, u, -, rfl⟩
    · exact absurd rfl hc
    · exact .inr (.inr (.inr ⟨by simp [hi], rfl⟩))
    · exact .inr (.inr (.inl ⟨ha, rfl, rfl⟩))

/-! The obligations. -/

/-- Settles O31: no command stops in a state that meets the invariant, and each outcome of a step keeps it. -/
theorem stepKeepsTheInvariant : Obligations.StepKeepsTheInvariant := by
  intro s h
  obtain ⟨t, ht⟩ := h.step_completes
  exact ⟨t, ht, step_inv h ht⟩

/-- Settles O30: `State.reset` is what a reset makes of itself. -/
theorem resetMeetsTheInvariant : Obligations.ResetMeetsTheInvariant :=
  resetState_inv (s := State.reset) (by simp [State.reset])

/-- Settles O36: the invariant after the step holds the form, in an epoch and before the first. -/
theorem dictionaryStaysCanonical : Obligations.DictionaryStaysCanonical := by
  intro s t h ht
  exact (step_inv h ht).dict_wf

/-- Settles O8: `status_toNat` says where the fields lie; R28 gives `MCS` and `WIDTH` their ranges. -/
theorem statusReadReturnsTheFields : Obligations.StatusReadReturnsTheFields := by
  refine ⟨fun _ => rfl, by decide, fun s h => ?_⟩
  have hm := h.mcs_legal
  have hw := h.width_legal
  have hp := s.phase.code_le
  have he := s.err.code_le
  have hv : (readStatus s).1.toNat = 4096 * s.width + 256 * s.mcs + 4 * s.err.code + s.phase.code :=
    status_toNat (by omega) (by omega)
  dsimp only
  rw [hv]
  refine ⟨?_, ?_, by omega, by omega, by omega, by omega, hm, hw⟩
  · change _ = s.phase.code
    omega
  · change _ = s.err.code
    omega

/-- Settles O17, by the outcomes of a step and of each command. -/
theorem phaseTransitions : Obligations.PhaseTransitions := by
  intro s t ht hc
  rcases step_next ht with rfl | ⟨rest, hi, rfl⟩ | ⟨w, rest, hi, ⟨i, hd, hx⟩ | ⟨-, hx⟩⟩
  · exact absurd rfl hc
  · exact .inl ⟨rfl, by rw [hi]; rfl⟩
  · refine .inr ⟨w, by rw [hi]; rfl, ?_⟩
    rcases exec_phase hx hc with ⟨ht, rfl⟩ | ⟨hs, ht, m, rfl⟩ | ⟨hs, ht, rfl⟩ | h
    · exact .inl ⟨ht, hd⟩
    · exact .inr (.inl ⟨hs, ht, m, hd⟩)
    · exact .inr (.inr (.inl ⟨hs, ht, hd⟩))
    · exact .inr (.inr (.inr h))
  · refine .inr ⟨w, by rw [hi]; rfl, .inr (.inr (.inr ?_))⟩
    rcases execIllegal_next hx with ⟨-, rfl⟩ | ⟨hs, rfl⟩
    · exact absurd rfl hc
    · exact ⟨hs, rfl⟩

/-- Settles O33: each register's range under the invariant is below the width R12 gives it. -/
theorem registersFitTheirWidths : Obligations.RegistersFitTheirWidths := by
  intro s h
  have hm := h.mcs_legal
  have hw := h.width_legal
  have hn := h.next_le
  obtain ⟨hlen, hacc⟩ := h.packer
  obtain ⟨hcnt, hbuf⟩ := h.framer
  exact
    { mcs := by omega
      width := by omega
      next := by omega
      acc := hacc.trans_le (Nat.pow_le_pow_right (by decide) (by omega))
      acclen := by omega
      sbbuf := hbuf
      sbcnt := by omega
      dict := fun e he => (h.code_lt he).trans_le hn }

/-- Settles O34: `P` is a key, its code is below `NEXT`, and `WIDTH` follows `NEXT` in an open session. -/
theorem dataCodesFitTheirWidth : Obligations.DataCodesFitTheirWidth := by
  intro s h ha hp
  have hc := h.coding ha
  obtain ⟨c, hf⟩ := Dict.find_of_has (h.prefixKey.resolve_left hp)
  exact ⟨c, hf, Nat.le_sub_one_of_lt (hc.epoch.find_lt hf), hc.epoch.next_fits hc.width,
    hc.epoch.mcs_lt_width hc.width, hc.epoch.widthRange.2⟩

/-- Settles O35, from the codes of an epoch and the canonical form. -/
theorem codesAreUniqueAndNotReserved : Obligations.CodesAreUniqueAndNotReserved := by
  intro s q r c h ha hq
  have he := (h.coding ha).epoch
  obtain ⟨hclear, heoi⟩ := he.find_ne_reserved hq
  exact ⟨hclear, heoi, he.find_lt hq, he.dict_wf.find_inj hq⟩

/-- Settles O6: power-on, `RESET` and the reset input all lead to a state that `resetState` answers. -/
theorem registersAfterReset : Obligations.RegistersAfterReset := by
  intro t ht
  have hreset : ∃ s, t = resetState s := by
    rcases ht with rfl | ⟨s, hs⟩ | ⟨s, rest, hi, hs⟩
    · exact ⟨State.reset, rfl⟩
    · cases hs; exact ⟨s, rfl⟩
    · rw [step_of_input hi] at hs
      cases hs; exact ⟨s.setInputs rest, rfl⟩
  obtain ⟨s, rfl⟩ := hreset
  exact ⟨rfl, rfl, rfl, rfl, rfl, rfl, rfl, rfl, rfl, rfl, Prod.ext (resetState_status s) rfl⟩

end Sys2Proof.Machine

/-! The family of 20_memory.md: one step, the output channel, and the bytes the host takes from it. -/

namespace Sys2Proof.Machine

variable {s t : State}

/-! A step and the input it takes (R40, R48). -/

theorem runWord_of_ok {w : CmdWord} {i : Instr} (h : decode w = .ok i) : runWord w s = exec i s := by
  simp only [runWord, h]

theorem runWord_of_error {w : CmdWord} {e : Illegal} (h : decode w = .error e) : runWord w s = execIllegal s := by
  simp only [runWord, h]

/-- A word put before the block is the next one it takes (log entry 4). -/
theorem step_present (i : Input) (s : State) : step (present i s) = runInput i s :=
  step_of_input (s := present i s) rfl

theorem decode_of_decodeTableWord {nbits w : Nat} {i : Instr} (h : decodeTableWord nbits w = some i) :
    decode (tableWord nbits w) = .ok i := by
  unfold decodeTableWord at h
  split at h
  · cases hd : decode (tableWord nbits w) with
    | ok j => rw [hd] at h; cases h; rfl
    | error e => rw [hd] at h; cases h
  · cases h

/-! The inputs waiting and the parameters: no command writes them (R5, R40). -/

theorem exec_frame {i : Instr} (h : exec i s = .next t) : t.inputs = s.inputs ∧ t.cfg = s.cfg := by
  cases i with
  | nop => cases h; exact ⟨rfl, rfl⟩
  | reset => cases h; exact ⟨rfl, rfl⟩
  | start m =>
    rcases execStart_next h with ⟨-, rfl⟩ | ⟨-, rfl⟩ | ⟨-, -, rfl⟩ | ⟨-, -, -, rfl⟩ <;> simp [openSession]
  | pixel v =>
    rcases execPixel_next h with ⟨-, rfl⟩ | ⟨-, rfl⟩ | ⟨-, -, rfl⟩ | ⟨-, -, hl⟩
    · simp
    · simp
    · simp
    · obtain ⟨-, -, -, hin, hcfg⟩ := lzwPixel_frame hl
      exact ⟨hin, hcfg⟩
  | endCmd =>
    rcases execEnd_next h with ⟨-, rfl⟩ | ⟨-, rfl⟩ | ⟨-, u, hl, rfl⟩
    · simp
    · simp
    · obtain ⟨-, -, -, hin, hcfg, -⟩ := lzwFinish_frame hl
      simp [closeSession, hin, hcfg]

theorem execIllegal_frame (h : execIllegal s = .next t) : t.inputs = s.inputs ∧ t.cfg = s.cfg := by
  rcases execIllegal_next h with ⟨-, rfl⟩ | ⟨-, rfl⟩ <;> simp

/-! No operation withdraws a byte of the output channel, in whatever state it runs (R34). -/

theorem outByte_out_prefix (b : Byte) (s : State) : s.out <+: (outByte b s).out := List.prefix_append _ _

theorem emitSubBlock_out_prefix (s : State) : s.out <+: (emitSubBlock s).out := by
  rw [emitSubBlock_out]
  exact List.prefix_append _ _

theorem rawByte_out_prefix (b : Byte) (s : State) : s.out <+: (rawByte b s).out := by
  unfold rawByte
  dsimp only
  split
  · exact emitSubBlock_out_prefix (bufferByte b s)
  · exact List.prefix_rfl

theorem packLoop_out_prefix (fuel : Nat) (s : State) : s.out <+: (packLoop fuel s).out := by
  induction fuel generalizing s with
  | zero => exact List.prefix_rfl
  | succ fuel ih =>
    unfold packLoop
    split
    · exact (rawByte_out_prefix (accByte s) s).trans (ih (shiftOut s))
    · exact List.prefix_rfl

theorem putCode_out_prefix (c w : Nat) (s : State) : s.out <+: (putCode c w s).out :=
  packLoop_out_prefix _ (holdCode c w s)

theorem emitData_out_prefix (c : Nat) (s : State) : s.out <+: (emitData c s).out := by
  rw [emitData, widthCheck_out]
  exact putCode_out_prefix c s.width s

theorem growOrReset_out_prefix (str : List Byte) (s : State) : s.out <+: (growOrReset str s).out := by
  unfold growOrReset
  split
  · exact List.prefix_rfl
  · exact putCode_out_prefix (clearCode s) s.width s

theorem writeEoi_out_prefix (s : State) : s.out <+: (writeEoi s).out := by
  unfold writeEoi
  split
  · exact putCode_out_prefix (eoiCode s) s.width s
  · exact List.prefix_rfl

theorem lzwPixel_out_prefix {v : Nat} (h : lzwPixel v s = .next t) : s.out <+: t.out := by
  rcases lzwPixel_next h with ⟨-, rfl⟩ | ⟨-, -, rfl⟩ | ⟨c, -, -, -, rfl⟩
  · exact List.prefix_rfl
  · exact List.prefix_rfl
  · exact (emitData_out_prefix c s).trans (growOrReset_out_prefix _ (emitData c s))

theorem lzwFinish_out_prefix (h : lzwFinish s = .next t) : s.out <+: t.out := by
  rcases lzwFinish_next h with ⟨-, rfl⟩ | ⟨c, -, -, rfl⟩
  · exact writeEoi_out_prefix s
  · exact (emitData_out_prefix c s).trans (writeEoi_out_prefix (emitData c s))

/-- `START` before its opening `CLEAR`: the session's registers are written and the header byte is sent (R72). -/
def headerSent (m : Nat) (s : State) : State :=
  outByte (operandByte m) (((dictInit m (s.setMcs m)).setP []).setAcc 0 |>.setAcclen 0 |>.setSbcnt 0)

theorem openSession_eq (m : Nat) (s : State) :
    openSession m s = (putCode (2 ^ m) (m + 1) (headerSent m s)).setPhase .active := rfl

theorem headerSent_out (m : Nat) (s : State) : (headerSent m s).out = s.out ++ [BitVec.ofNat 8 m] := rfl

theorem openSession_out_prefix (m : Nat) (s : State) : s.out <+: (openSession m s).out := by
  rw [openSession_eq]
  exact (List.prefix_append s.out [BitVec.ofNat 8 m]).trans (putCode_out_prefix _ _ (headerSent m s))

theorem flushBits_out_prefix (s : State) : s.out <+: (flushBits s).out := by
  unfold flushBits
  dsimp only
  split
  · exact rawByte_out_prefix (accByte s) s
  · exact List.prefix_rfl

theorem flushFrame_out_prefix (s : State) : s.out <+: (flushFrame s).out := by
  unfold flushFrame
  split
  · exact (emitSubBlock_out_prefix s).trans (outByte_out_prefix _ _)
  · exact outByte_out_prefix _ s

theorem closeSession_out_prefix (s : State) : s.out <+: (closeSession s).out :=
  (flushBits_out_prefix s).trans (flushFrame_out_prefix (flushBits s))

theorem exec_out_prefix {i : Instr} (h : exec i s = .next t) : s.out <+: t.out := by
  cases i with
  | nop => cases h; exact List.prefix_rfl
  | reset => cases h; exact List.prefix_rfl
  | start m =>
    rcases execStart_next h with ⟨-, rfl⟩ | ⟨-, rfl⟩ | ⟨-, -, rfl⟩ | ⟨-, -, -, rfl⟩
    · exact List.prefix_rfl
    · exact List.prefix_rfl
    · exact List.prefix_rfl
    · exact openSession_out_prefix m s
  | pixel v =>
    rcases execPixel_next h with ⟨-, rfl⟩ | ⟨-, rfl⟩ | ⟨-, -, rfl⟩ | ⟨-, -, hl⟩
    · exact List.prefix_rfl
    · exact List.prefix_rfl
    · exact List.prefix_rfl
    · exact lzwPixel_out_prefix hl
  | endCmd =>
    rcases execEnd_next h with ⟨-, rfl⟩ | ⟨-, rfl⟩ | ⟨-, u, hl, rfl⟩
    · exact List.prefix_rfl
    · exact List.prefix_rfl
    · exact (lzwFinish_out_prefix hl).trans (closeSession_out_prefix u)

theorem execIllegal_out_prefix (h : execIllegal s = .next t) : s.out <+: t.out := by
  rcases execIllegal_next h with ⟨-, rfl⟩ | ⟨-, rfl⟩ <;> exact List.prefix_rfl

/-- One input's effect on the channels and the parameters (R5, R34, R40). -/
theorem runInput_channels {i : Input} (h : runInput i s = .next t) :
    s.out <+: t.out ∧ t.inputs = s.inputs ∧ t.cfg = s.cfg := by
  cases i with
  | hardwareReset => cases h; exact ⟨List.prefix_rfl, rfl, rfl⟩
  | word w =>
    change runWord w s = .next t at h
    cases hd : decode w with
    | ok i =>
      rw [runWord_of_ok hd] at h
      exact ⟨exec_out_prefix h, exec_frame h⟩
    | error e =>
      rw [runWord_of_error hd] at h
      exact ⟨execIllegal_out_prefix h, execIllegal_frame h⟩

/-! How many code bits an operation of a session writes, and the bytes that leave for them (R65 to R71). -/

/-- `t` comes from `s` by writing at most `n` code bits: the stream since `s`'s pending bytes (`Streamed`) has at most
that many bits beyond the ones `s` held. -/
def WroteAtMost (n : Nat) (s t : State) : Prop :=
  ∃ V B, Streamed s.out (pending s) V B t ∧ B ≤ s.acclen + n

section
variable {n : Nat}

theorem WroteAtMost.refl (hf : Framed s) (hp : Packed s) : WroteAtMost 0 s s :=
  ⟨s.acc, s.acclen, streamed_self hf hp, le_rfl⟩

theorem WroteAtMost.mono {k : Nat} (h : WroteAtMost n s t) (hk : n ≤ k) : WroteAtMost k s t := by
  obtain ⟨V, B, hs, hB⟩ := h
  exact ⟨V, B, hs, by omega⟩

/-- The bits written rest on the packer's and the framer's registers and the output alone. -/
theorem WroteAtMost.congr {u : State} (h : WroteAtMost n s t) (h1 : u.acc = t.acc) (h2 : u.acclen = t.acclen)
    (h3 : u.sbbuf = t.sbbuf) (h4 : u.sbcnt = t.sbcnt) (h5 : u.out = t.out) : WroteAtMost n s u := by
  obtain ⟨V, B, hs, hB⟩ := h
  exact ⟨V, B, hs.congr h1 h2 h3 h4 h5, hB⟩

/-- A code has at most 12 bits (R6, R65). -/
theorem WroteAtMost.putCode {c w : Nat} (h : WroteAtMost n s t) (hc : c < 2 ^ w) (hw : w ≤ 12) :
    WroteAtMost (n + 12) s (putCode c w t) := by
  obtain ⟨V, B, hs, hB⟩ := h
  exact ⟨_, _, hs.put hc, by omega⟩

/-- A data code (R56). -/
theorem State.Coding.emitData_wrote {c : Nat} (h : s.Coding) (hc : c < s.next) : WroteAtMost 12 s (emitData c s) := by
  have hfits := h.epoch.next_fits h.width
  have hput : WroteAtMost 12 s (Machine.putCode c s.width s) := by
    simpa using (WroteAtMost.refl h.framed h.packed).putCode (c := c) (by omega) h.epoch.widthRange.2
  exact hput.congr (by simp [emitData]) (by simp [emitData]) (by simp [emitData]) (by simp [emitData])
    (by simp [emitData])

/-- `CLEAR` or `EOI` (R60, R62). -/
theorem WroteAtMost.putReserved {c : Nat} (h : WroteAtMost n s t) (hr : t.Ready) (hc : c ≤ eoiCode t) :
    WroteAtMost (n + 12) s (Machine.putCode c t.width t) :=
  h.putCode (hc.trans_lt (two_pow_succ_lt hr.epoch.mcsRange.1 hr.width)) hr.epoch.widthRange.2

/-- The novel string costs no bit; a table reset costs `CLEAR` (R59, R60). -/
theorem WroteAtMost.growOrReset (str : List Byte) (h : WroteAtMost n s t) (hr : t.Ready) :
    WroteAtMost (n + 12) s (growOrReset str t) := by
  unfold Machine.growOrReset
  split
  · exact (h.congr (u := insertEntry str t) rfl rfl rfl rfl rfl).mono (by omega)
  · exact (h.putReserved hr (c := clearCode t) (Nat.le_succ _)).congr rfl rfl rfl rfl rfl

theorem WroteAtMost.writeEoi (h : WroteAtMost n s t) (hr : t.Ready) :
    WroteAtMost (n + if t.cfg.emitEoi then 12 else 0) s (writeEoi t) := by
  unfold Machine.writeEoi
  split
  · exact h.putReserved hr le_rfl
  · exact h

/-- A pixel writes at most two codes (R55, R71). -/
theorem State.Coding.lzwPixel_wrote {v : Nat} (h : s.Coding) (ht : lzwPixel v s = .next t) : WroteAtMost 24 s t := by
  have hrefl := (WroteAtMost.refl h.framed h.packed).mono (k := 24) (by omega)
  rcases lzwPixel_next ht with ⟨-, rfl⟩ | ⟨-, -, rfl⟩ | ⟨c, -, -, hf, rfl⟩
  · exact hrefl.congr rfl rfl rfl rfl rfl
  · exact hrefl.congr rfl rfl rfl rfl rfl
  · have hc := h.epoch.find_lt hf
    exact ((h.emitData_wrote hc).growOrReset _ (h.emitData_ready hc)).congr rfl rfl rfl rfl rfl

/-- The end of a session writes at most the last data code, and `EOI` where it is enabled (R62, R71). -/
theorem State.Coding.lzwFinish_wrote (h : s.Coding) (ht : lzwFinish s = .next t) :
    WroteAtMost (12 + if s.cfg.emitEoi then 12 else 0) s t := by
  rcases lzwFinish_next ht with ⟨-, rfl⟩ | ⟨c, -, hf, rfl⟩
  · exact (((WroteAtMost.refl h.framed h.packed).mono (Nat.zero_le 12)).writeEoi h.ready).congr rfl rfl rfl rfl rfl
  · have hc := h.epoch.find_lt hf
    have hwrote := (h.emitData_wrote hc).writeEoi (h.emitData_ready hc)
    rw [emitData_cfg] at hwrote
    exact hwrote.congr rfl rfl rfl rfl rfl

/-- The raw bytes of at most `n` code bits leave as one full sub-block, if they complete it (R66). -/
theorem WroteAtMost.out_eq (h : WroteAtMost n s t) (hf : Framed s) (hp : Packed s) (hn : n ≤ 24) :
    ∃ raw : List Byte, raw.length ≤ (s.acclen + n) / 8 ∧ t.out = s.out ++ completed (pending s) raw := by
  obtain ⟨V, B, hs, hB⟩ := h
  have hheld := pending_length hf
  have hcnt := hf.1
  have hbits := hp.1
  have hraw : (lowBytes (B / 8) V).length ≤ (s.acclen + n) / 8 := by rw [lowBytes_length]; omega
  exact ⟨_, hraw, (hs.sl.joined (by omega) (by omega)).2⟩

/-- What leaves for few raw bytes is nothing or one block of 256 bytes (R66). -/
theorem completed_eq_nil_or (held raw : List Byte) :
    completed held raw = [] ∨
      (completed held raw).length = 256 ∧ (completed held raw).head? = some 0xFF#8 := by
  unfold completed
  split
  · exact .inr ⟨by rw [List.length_cons, List.length_take]; omega, rfl⟩
  · exact .inl rfl

/-- A sub-block of raw bytes costs one length byte more (R70). -/
theorem subBlocks_length (F : List Byte) : (subBlocks F).length = F.length + (F.length + 254) / 255 := by
  have hblocks : ((List.range (F.length / 255)).flatMap fun j => 0xFF#8 :: (F.drop (255 * j)).take 255).length =
      F.length / 255 * 256 := by
    rw [List.length_flatMap, List.map_congr_left (g := fun _ => 256)]
    · simp
    · intro j hj
      have : j < F.length / 255 := List.mem_range.1 hj
      rw [List.length_cons, List.length_take, List.length_drop]
      omega
  have hrest : (F.drop (255 * (F.length / 255))).length = F.length % 255 := by rw [List.length_drop]; omega
  rw [subBlocks_eq, List.length_append, hblocks]
  split
  · rename_i hnil
    rw [hnil] at hrest
    simp only [List.length_nil] at hrest ⊢
    omega
  · rename_i hne
    have := List.length_pos_iff.2 hne
    rw [List.length_cons, hrest]
    omega

/-- Where a session closes, the raw bytes pending and those of the bits written leave, padded to whole bytes, as
sub-blocks with the terminator after them (R67, R68, R74). -/
theorem WroteAtMost.closeSession_out (h : WroteAtMost n s t) (hf : Framed s) :
    ∃ F : List Byte, F.length ≤ 254 + (s.acclen + n + 7) / 8 ∧
      (closeSession t).out = s.out ++ (subBlocks F ++ [0x00#8]) := by
  obtain ⟨V, B, hs, hB⟩ := h
  have hheld := pending_length hf
  have hcnt := hf.1
  refine ⟨pending s ++ lowBytes ((B + 7) / 8) V, ?_, ?_⟩
  · rw [List.length_append, lowBytes_length]; omega
  · rw [← List.append_assoc]; exact flushFrame_sliced hs.flush

end

/-- `START` sends its header byte; the opening `CLEAR` fills no sub-block, since none is pending (R69, R72). -/
theorem openSession_out {m : Nat} (hm : 2 ≤ m ∧ m ≤ 8) (hb : s.sbbuf.length = maxSubblock) :
    (openSession m s).out = s.out ++ [BitVec.ofNat 8 m] := by
  have hf : Framed (headerSent m s) := ⟨Nat.zero_le 254, hb⟩
  have hp : Packed (headerSent m s) := ⟨Nat.zero_le 7, Nat.one_pos⟩
  have hclear : 2 ^ m < 2 ^ (m + 1) := Nat.pow_lt_pow_right (by decide) (by omega)
  obtain ⟨raw, hraw, hout⟩ :=
    ((WroteAtMost.refl hf hp).putCode hclear (by omega)).out_eq hf hp (by omega)
  have hheld : (pending (headerSent m s)).length = 0 := pending_length hf
  have hbits : (headerSent m s).acclen = 0 := rfl
  have hnone : completed (pending (headerSent m s)) raw = [] := if_neg (by rw [List.length_append]; omega)
  rw [openSession_eq, State.setPhase_out, hout, hnone, List.append_nil, headerSent_out]

/-! The host's view of the channel (R11, R39). -/

theorem Platform.drive_next {i : Input} {pl q : Platform} (h : pl.drive i = .next q) :
    ∃ t, step (present i pl.block) = .next t ∧ q = { pl with block := t } := by
  unfold Platform.drive at h
  split at h <;> cases h
  exact ⟨_, ‹_›, rfl⟩

/-- The bytes not taken follow the bytes taken (R34). -/
theorem Platform.taken_append_channel {pl : Platform} (h : pl.taken <+: pl.block.out) :
    pl.taken ++ pl.channel = pl.block.out :=
  List.prefix_iff_eq_append.1 h

/-- What the block appends leaves the bytes taken the first of the channel (R34). -/
theorem Platform.drive_taken_prefix {i : Input} {pl q : Platform} (h : pl.taken <+: pl.block.out)
    (hq : pl.drive i = .next q) : q.taken <+: q.block.out := by
  obtain ⟨t, ht, rfl⟩ := Platform.drive_next hq
  rw [step_present] at ht
  exact h.trans (runInput_channels ht).1

theorem Platform.act_taken_prefix {a : HostAction} {pl q : Platform} (h : pl.taken <+: pl.block.out)
    (hq : pl.act a = .next q) : q.taken <+: q.block.out := by
  cases a with
  | send w => exact Platform.drive_taken_prefix h hq
  | assertReset => exact Platform.drive_taken_prefix (i := .hardwareReset) h hq
  | rdStatus => cases hq; exact h
  | takeByte =>
    cases hq
    change pl.taken ++ pl.channel.take 1 <+: pl.block.out
    rw [← Platform.taken_append_channel h]
    exact (List.prefix_append_right_inj _).2 (List.take_prefix _ _)

theorem Platform.run_taken_prefix {actions : List HostAction} {pl q : Platform} (h : pl.taken <+: pl.block.out)
    (hq : Platform.run actions pl = .next q) : q.taken <+: q.block.out := by
  induction actions generalizing pl with
  | nil => cases hq; exact h
  | cons a rest ih =>
    unfold Platform.run at hq
    split at hq
    · rename_i u hu
      exact ih (Platform.act_taken_prefix h hu) hq
    · cases hq
    · cases hq

/-- A take moves the first byte not taken, if any, to the ones taken (R39, log entry 10). -/
theorem Platform.channel_of_take (pl : Platform) :
    Platform.channel { pl with taken := pl.taken ++ pl.channel.take 1 } = pl.channel.tail := by
  change pl.block.out.drop (pl.taken ++ pl.channel.take 1).length = pl.channel.tail
  rw [List.length_append, ← List.drop_drop]
  change pl.channel.drop (pl.channel.take 1).length = pl.channel.tail
  cases pl.channel <;> rfl

/-! The obligations. -/

/-- Settles O5, from what one input does to the channels. -/
theorem stepOnlyAppendsToTheOutput : Obligations.StepOnlyAppendsToTheOutput := by
  intro s t h
  cases hi : s.inputs with
  | nil =>
    rw [step_of_no_input hi] at h
    cases h
    exact ⟨List.prefix_rfl, hi, rfl⟩
  | cons i rest =>
    rw [step_of_input hi] at h
    exact runInput_channels h

/-- Settles O37: a pixel writes at most two codes, so at most one sub-block fills; `END` sends at most 254 raw bytes
pending and 3, or with `EOI` 4, for the bits. -/
theorem bytesEachCommandAppends : Obligations.BytesEachCommandAppends := by
  intro i s t h ht
  cases i with
  | nop => cases ht; exact ⟨[], by simp, rfl⟩
  | reset => cases ht; exact ⟨[], by simp, rfl⟩
  | start m =>
    rcases execStart_next ht with ⟨hp, rfl⟩ | ⟨hp, rfl⟩ | ⟨-, hm, rfl⟩ | ⟨hp, h2, h8, rfl⟩
    · exact ⟨[], by simp, by simp [hp]⟩
    · exact ⟨[], by simp, by simp [hp]⟩
    · exact ⟨[], by simp, (if_neg fun hc => hm hc.2).symm⟩
    · exact ⟨_, openSession_out ⟨h2, h8⟩ h.framer.2, (if_pos ⟨hp, h2, h8⟩).symm⟩
  | pixel v =>
    rcases execPixel_next ht with ⟨-, rfl⟩ | ⟨-, rfl⟩ | ⟨-, -, rfl⟩ | ⟨ha, -, hl⟩
    · exact ⟨[], by simp, .inl rfl⟩
    · exact ⟨[], by simp, .inl rfl⟩
    · exact ⟨[], by simp, .inl rfl⟩
    · obtain ⟨raw, -, hout⟩ := ((h.coding ha).lzwPixel_wrote hl).out_eq h.framer h.packer le_rfl
      exact ⟨_, hout, completed_eq_nil_or _ raw⟩
  | endCmd =>
    rcases execEnd_next ht with ⟨hp, rfl⟩ | ⟨hp, rfl⟩ | ⟨ha, u, hl, rfl⟩
    · exact ⟨[], by simp, by simp [hp]⟩
    · exact ⟨[], by simp, by simp [hp]⟩
    · obtain ⟨F, hF, hout⟩ := ((h.coding ha).lzwFinish_wrote hl).closeSession_out h.framer
      have hbits := h.packer.1
      refine ⟨_, hout, ?_⟩
      dsimp only
      rw [if_pos ha, List.length_append, subBlocks_length, List.length_singleton]
      refine ⟨List.getLast?_concat, ?_⟩
      split_ifs at hF ⊢ <;> omega

/-- Settles O41, by induction over the host's actions. -/
theorem takenBytesAreTheFirstOfTheChannel : Obligations.TakenBytesAreTheFirstOfTheChannel := by
  have hreset : Platform.reset.taken <+: Platform.reset.block.out := List.prefix_rfl
  refine ⟨hreset, fun _ _ _ => Platform.act_taken_prefix, fun _ _ => Platform.run_taken_prefix hreset,
    fun pl => ⟨⟨_, rfl, rfl, ?_, Platform.channel_of_take pl⟩, rfl⟩⟩
  rw [Platform.channel_of_take, List.append_assoc]
  cases pl.channel <;> rfl

/-- Settles O4, by the equation of each kind of input. -/
theorem stepRunsTheDecodedCommand : Obligations.StepRunsTheDecodedCommand := by
  refine ⟨fun s w rest i hi hd => ?_, fun s w rest e hi hd => ?_, fun s rest hi => step_of_input hi,
    fun s => step_of_no_input, fun s nbits w i hd => ?_⟩
  · exact (step_of_input hi).trans (runWord_of_ok hd)
  · exact (step_of_input hi).trans (runWord_of_error hd)
  · exact (step_present _ s).trans (runWord_of_ok (decode_of_decodeTableWord hd))

end Sys2Proof.Machine

/-! The family of 30_encoding.md: the decoder and the encoder, the rows of the opcode map, and the text form. -/

namespace Sys2Proof

/-! The two fields of a word (R45). -/

theorem opField_append (op arg : Byte) : opField (op ++ arg) = op := by
  have := arg.isLt
  rw [← BitVec.toNat_inj, opField_toNat, append_toNat]
  omega

theorem argField_append (op arg : Byte) : argField (op ++ arg) = arg := by
  have := arg.isLt
  rw [← BitVec.toNat_inj, argField_toNat, append_toNat]
  omega

/-! Decoding and encoding (R46, R48, R51). -/

theorem wellFormed_start {m : Nat} : (Instr.start m).wellFormed = true ↔ m ≤ 255 := decide_eq_true_iff

theorem wellFormed_pixel {v : Nat} : (Instr.pixel v).wellFormed = true ↔ v ≤ 255 := decide_eq_true_iff

theorem decode_of_opField_start {w : CmdWord} (h : opField w = 0x01#8) :
    decode w = .ok (.start (argField w).toNat) := by
  simp [decode, h]

theorem decode_of_opField_pixel {w : CmdWord} (h : opField w = 0x02#8) :
    decode w = .ok (.pixel (argField w).toNat) := by
  simp [decode, h]

/-- The `ARG` field holds every operand that can be encoded. -/
theorem argField_append_ofNat {n : Nat} (op : Byte) (h : n ≤ 255) :
    (argField (op ++ BitVec.ofNat 8 n)).toNat = n := by
  rw [argField_append, BitVec.toNat_ofNat, Nat.mod_eq_of_lt (by omega)]

theorem decode_encode {i : Instr} (h : i.wellFormed = true) : decode (encode i) = .ok i := by
  cases i with
  | nop => rfl
  | start m =>
    rw [encode, decode_of_opField_start (opField_append _ _), argField_append_ofNat _ (wellFormed_start.1 h)]
  | pixel v =>
    rw [encode, decode_of_opField_pixel (opField_append _ _), argField_append_ofNat _ (wellFormed_pixel.1 h)]
  | endCmd => rfl
  | reset => rfl

theorem wellFormed_of_decode {w : CmdWord} {i : Instr} (h : decode w = .ok i) : i.wellFormed = true := by
  rcases decode_cases w with ⟨-, hd⟩ | ⟨-, hd⟩ | ⟨-, hd⟩ | ⟨-, hd⟩ | ⟨-, hd⟩ | ⟨-, e, hd⟩ <;> cases hd.symm.trans h
  · rfl
  · exact wellFormed_start.2 (by omega)
  · exact wellFormed_pixel.2 (by omega)
  · rfl
  · rfl

theorem encode_of_decode {w : CmdWord} {i : Instr} (h : decode w = .ok i) : encode i = w := by
  refine BitVec.eq_of_toNat_eq ((encode_toNat i (wellFormed_of_decode h)).trans ?_)
  rcases decode_cases w with ⟨hw, hd⟩ | ⟨hw, hd⟩ | ⟨hw, hd⟩ | ⟨hw, hd⟩ | ⟨hw, hd⟩ | ⟨-, e, hd⟩ <;>
    cases hd.symm.trans h <;> dsimp only <;> omega

/-! The rows of the opcode map (R47). -/

/-- The mask of a command with an operand keeps the `OP` field. -/
theorem and_opMask (w : CmdWord) : w &&& 0xFF00#16 = opField w ++ 0x00#8 := by
  ext i hi
  rw [BitVec.getElem_append]
  interval_cases i <;> simp [opField]

theorem selects_opMask {op : Byte} {w : CmdWord} :
    OpRow.selects ⟨op ++ 0x00#8, 0xFF00#16⟩ w = true ↔ opField w = op := by
  rw [OpRow.selects, beq_iff_eq, and_opMask]
  exact ⟨fun h => by simpa only [opField_append] using congrArg opField h, fun h => by rw [h]⟩

/-- The mask of a command without operand keeps the whole word. -/
theorem selects_wordMask {p w : CmdWord} : OpRow.selects ⟨p, 0xFFFF#16⟩ w = true ↔ w = p := by
  rw [OpRow.selects, beq_iff_eq, show w &&& 0xFFFF#16 = w from BitVec.and_allOnes]

theorem row_selects_encode (i : Instr) : i.row.selects (encode i) = true := by
  cases i with
  | nop => exact selects_wordMask.2 rfl
  | start m => exact selects_opMask.2 (opField_append 0x01#8 _)
  | pixel v => exact selects_opMask.2 (opField_append 0x02#8 _)
  | endCmd => exact selects_wordMask.2 rfl
  | reset => exact selects_wordMask.2 rfl

theorem exists_decode_of_row_selects {i : Instr} {w : CmdWord} (h : i.row.selects w = true) :
    ∃ j, decode w = .ok j ∧ i.row = j.row := by
  cases i with
  | nop => cases selects_wordMask.1 h; exact ⟨.nop, rfl, rfl⟩
  | start m => exact ⟨_, decode_of_opField_start (selects_opMask.1 h), rfl⟩
  | pixel v => exact ⟨_, decode_of_opField_pixel (selects_opMask.1 h), rfl⟩
  | endCmd => cases selects_wordMask.1 h; exact ⟨.endCmd, rfl, rfl⟩
  | reset => cases selects_wordMask.1 h; exact ⟨.reset, rfl, rfl⟩

/-- A row of a command selects a word exactly where the word decodes to a command of that row. -/
theorem row_selects_iff {i : Instr} {w : CmdWord} :
    i.row.selects w = true ↔ ∃ j, decode w = .ok j ∧ i.row = j.row := by
  refine ⟨exists_decode_of_row_selects, ?_⟩
  rintro ⟨j, hd, hrow⟩
  rw [hrow, ← encode_of_decode hd]
  exact row_selects_encode j

theorem mem_opcodeMap {r : OpRow} : r ∈ opcodeMap ↔ ∃ i : Instr, r = i.row := by
  constructor
  · intro h
    simp only [opcodeMap, List.mem_cons, List.not_mem_nil, or_false] at h
    rcases h with h | h | h | h | h <;> exact ⟨_, h⟩
  · rintro ⟨i, rfl⟩
    cases i <;> simp [opcodeMap, Instr.row]

theorem opcodeMap_nodup : opcodeMap.Nodup := by decide

end Sys2Proof

namespace Sys2Proof.Machine

/-! A command as the host's action (R51). -/

theorem sendInstr_of_wellFormed {i : Instr} (h : i.wellFormed = true) : sendInstr i = .ok (.send (encode i)) :=
  if_pos h

theorem sendInstr_of_not_wellFormed {i : Instr} (h : ¬ i.wellFormed = true) : sendInstr i = .error .operandRange :=
  if_neg h

theorem mapM_sendInstr {is : List Instr} (h : ∀ i ∈ is, i.wellFormed = true) :
    is.mapM sendInstr = .ok (is.map fun i => HostAction.send (encode i)) := by
  induction is with
  | nil => rfl
  | cons i is ih =>
    rw [List.forall_mem_cons] at h
    rw [List.mapM_cons, sendInstr_of_wellFormed h.1, ih h.2]
    rfl

/-! A line with a mnemonic and operands (R51). -/

theorem mnemonics_lookup {name : List Char} {kind : Mnemonic} (h : (name, kind) ∈ mnemonics) :
    mnemonics.lookup name = some kind := by
  have hall : ∀ entry ∈ mnemonics, mnemonics.lookup entry.1 = some entry.2 := by decide
  exact hall _ h

theorem toLower_of_isBlank {c : Char} (h : isBlank c = true) : c.toLower = c := by
  simp only [isBlank, Bool.or_eq_true, beq_iff_eq] at h
  obtain (rfl | rfl) | rfl := h <;> decide

/-- A mnemonic is spelt in characters that are neither blanks nor `;`, in either case. -/
theorem mnemonic_chars {name : List Char} {kind : Mnemonic} (h : (name.map Char.toLower, kind) ∈ mnemonics) :
    name ≠ [] ∧ ∀ c ∈ name, isBlank c = false ∧ c ≠ ';' := by
  have hall : ∀ entry ∈ mnemonics, entry.1 ≠ [] ∧ ∀ c ∈ entry.1, isBlank c = false ∧ c ≠ ';' := by
    simp [mnemonics, isBlank]
  obtain ⟨hne, hchars⟩ := hall _ h
  refine ⟨fun hnil => hne (by rw [hnil]; rfl), fun c hc => ?_⟩
  obtain ⟨hblank, hsemi⟩ := hchars _ (List.mem_map_of_mem hc)
  constructor
  · by_contra hc
    rw [Bool.not_eq_false] at hc
    rw [toLower_of_isBlank hc, hc] at hblank
    cases hblank
  · rintro rfl
    exact hsemi (by decide)

theorem rtrim_nil : rtrim [] = [] := rfl

theorem rtrim_eq_rdropWhile (cs : List Char) : rtrim cs = cs.rdropWhile isBlank := rfl

/-- The blanks dropped lie after the last character that is none, so after `name`. -/
theorem rtrim_append {name : List Char} (h : ∀ c ∈ name, isBlank c = false) (cs : List Char) :
    rtrim (name ++ cs) = name ++ rtrim cs := by
  induction cs using List.reverseRecOn with
  | nil =>
    rw [rtrim_nil, List.append_nil, rtrim_eq_rdropWhile]
    refine List.rdropWhile_eq_self_iff.2 fun hne => ?_
    rw [h _ (List.getLast_mem hne)]
    exact Bool.false_ne_true
  | append_singleton cs c ih =>
    rw [← List.append_assoc]
    cases hc : isBlank c with
    | true => rw [rtrim_append_blank hc, rtrim_append_blank hc, ih]
    | false => rw [rtrim_append_nonblank hc, rtrim_append_nonblank hc, List.append_assoc]

theorem trim_append {name : List Char} (hne : name ≠ []) (h : ∀ c ∈ name, isBlank c = false) (cs : List Char) :
    trim (name ++ cs) = name ++ rtrim cs := by
  cases name with
  | nil => contradiction
  | cons c name =>
    rw [← rtrim_append h]
    simp [trim, rtrim, h c]

theorem rtrim_head? {cs : List Char} {c : Char} (h : c ∈ (rtrim cs).head?) : c ∈ cs.head? := by
  obtain ⟨blanks, hcs⟩ : rtrim cs <+: cs := List.rdropWhile_prefix isBlank cs
  rw [← hcs]
  exact List.mem_head?_append_of_mem_head? h

/-- A name ends at the first blank. -/
theorem takeWhile_dropWhile_nonblank {name rest : List Char} (h : ∀ c ∈ name, isBlank c = false)
    (hrest : ∀ c ∈ rest.head?, isBlank c = true) :
    (name ++ rest).takeWhile (fun c => !isBlank c) = name ∧
      (name ++ rest).dropWhile (fun c => !isBlank c) = rest := by
  have hname : ∀ c ∈ name, (!isBlank c) = true := fun c hc => by rw [h c hc]; rfl
  rw [List.takeWhile_append_of_pos hname, List.dropWhile_append_of_pos hname]
  cases rest with
  | nil => simp
  | cons c rest => simp [hrest c rfl]

/-- A line of a mnemonic that is expanded (every one but `.word` and `RDSTATUS`), a blank and its operands. -/
theorem assembleLine_mnemonic_operands {name text : List Char} {kind : Mnemonic}
    (hname : (name.map Char.toLower, kind) ∈ mnemonics) (hword : kind ≠ .word) (hread : kind ≠ .rdStatus)
    (htext : ';' ∉ text) :
    assembleLine (name ++ ' ' :: text) = (do (← expand kind (← operands text)).mapM sendInstr) := by
  obtain ⟨hne, hchars⟩ := mnemonic_chars hname
  have hblank : ∀ c ∈ name, isBlank c = false := fun c hc => (hchars c hc).1
  have hline : (name ++ ' ' :: text).takeWhile (· != ';') = name ++ ' ' :: text := by
    refine List.takeWhile_eq_self_iff.2 fun c hc => bne_iff_ne.2 ?_
    rcases List.mem_append.1 hc with hc | hc
    · exact (hchars c hc).2
    · rintro rfl
      exact (List.mem_cons.1 hc).elim (by decide) htext
  have hrest : ∀ c ∈ (rtrim (' ' :: text)).head?, isBlank c = true := fun c hc => by
    cases rtrim_head? hc
    rfl
  obtain ⟨htake, hdrop⟩ := takeWhile_dropWhile_nonblank hblank hrest
  have hnil : ¬ (name ++ rtrim (' ' :: text) = []) := fun h => hne (List.append_eq_nil_iff.1 h).1
  -- `hword` and `hread` rule out the two arms of the match above the last
  unfold assembleLine
  simp only [hline, trim_append hne hblank, if_neg hnil, htake, hdrop, mnemonics_lookup hname, operands_rtrim,
    operands_blank_cons (b := ' ') rfl]

/-! The pseudo-commands (R52). -/

theorem mapM_expand {kind : Mnemonic} {ns : List Nat} {is : List Instr} (hexpand : expand kind ns = .ok is)
    (h : ∀ i ∈ is, i.wellFormed = true) :
    (do (← expand kind ns).mapM sendInstr) = .ok (is.map fun i => HostAction.send (encode i)) := by
  rw [hexpand]
  exact mapM_sendInstr h

theorem wellFormed_of_mem_pixels {vs : List Nat} (h : ∀ x ∈ vs, x ≤ 255) :
    ∀ i ∈ vs.map Instr.pixel, i.wellFormed = true :=
  List.forall_mem_map.2 fun x hx => wellFormed_pixel.2 (h x hx)

/-! The obligations. -/

/-- Settles O2, from the two directions of the identity. -/
theorem decodeAndEncodeAgree : Obligations.DecodeAndEncodeAgree := by
  refine fun w i => ⟨fun h => ⟨wellFormed_of_decode h, encode_of_decode h⟩, ?_⟩
  rintro ⟨h, rfl⟩
  exact decode_encode h

/-- Settles O3: the rows that select a word are those equal to the decoded command's row, and the map holds each row
once. -/
theorem oneRowOrNoneMatchesAWord : Obligations.OneRowOrNoneMatchesAWord := by
  refine ⟨rfl, fun w => ?_⟩
  cases hd : decode w with
  | ok j =>
    have hrow : ∀ r ∈ opcodeMap, r.selects w = decide (r = j.row) := by
      intro r hr
      obtain ⟨i, rfl⟩ := mem_opcodeMap.1 hr
      rw [Bool.eq_iff_iff, row_selects_iff, decide_eq_true_iff]
      simp [hd]
    rw [List.filter_congr hrow, List.filter_eq, List.count_eq_one_of_mem opcodeMap_nodup (mem_opcodeMap.2 ⟨j, rfl⟩)]
    rfl
  | error e =>
    refine List.filter_eq_nil_iff.2 fun r hr hsel => ?_
    obtain ⟨i, rfl⟩ := mem_opcodeMap.1 hr
    obtain ⟨j, hj, -⟩ := row_selects_iff.1 hsel
    cases hd.symm.trans hj

/-- Settles O42: the line splits into its name and its operands, and each command of the expansion can be encoded. -/
theorem pseudoCommandsAssembleToTheirExpansions : Obligations.PseudoCommandsAssembleToTheirExpansions := by
  refine ⟨fun kind name text ns hkind hname htext hns => ?_, fun m v n vs hm hv hvs => ⟨?_, ?_, ?_⟩⟩
  · have hword : kind ≠ .word := by rintro rfl; simp at hkind
    have hread : kind ≠ .rdStatus := by rintro rfl; simp at hkind
    rw [assembleLine_mnemonic_operands hname hword hread htext, hns]
    rfl
  · rw [mapM_expand rfl (wellFormed_of_mem_pixels (List.forall_mem_cons.2 ⟨hv, hvs⟩)), List.map_map]
    rfl
  · have hrun : expand .run [v, n] = .ok (List.replicate n (.pixel v)) := if_pos (wellFormed_pixel.2 hv)
    rw [mapM_expand hrun fun i hi => (List.eq_of_mem_replicate hi).symm ▸ wellFormed_pixel.2 hv, List.map_replicate]
  · have hwf : ∀ i ∈ Instr.start m :: vs.map .pixel ++ [.endCmd], i.wellFormed = true :=
      List.forall_mem_append.2 ⟨List.forall_mem_cons.2 ⟨wellFormed_start.2 hm, wellFormed_of_mem_pixels hvs⟩,
        List.forall_mem_singleton.2 rfl⟩
    rw [mapM_expand rfl hwf, List.map_append, List.map_cons, List.map_map]
    rfl

/-- Settles O43: what is sent is the word of a well-formed command, so O2's identity reads it back. -/
theorem assembledCommandsDecodeBack : Obligations.AssembledCommandsDecodeBack := by
  refine ⟨fun n hn => ⟨?_, ?_⟩, fun i hi => ?_⟩
  · exact sendInstr_of_not_wellFormed fun h => absurd (wellFormed_start.1 h) (by omega)
  · exact sendInstr_of_not_wellFormed fun h => absurd (wellFormed_pixel.1 h) (by omega)
  · have h : i.wellFormed = true := by
      cases i with
      | nop => rfl
      | start m => exact wellFormed_start.2 (hi m (.inl rfl))
      | pixel v => exact wellFormed_pixel.2 (hi v (.inr rfl))
      | endCmd => rfl
      | reset => rfl
    exact ⟨encode i, sendInstr_of_wellFormed h, decode_encode h⟩

/-- Settles O1, by running the decoder on each word. -/
theorem sampleWordsDecode : Obligations.SampleWordsDecode :=
  ⟨rfl, rfl, rfl, rfl, rfl, rfl, rfl, rfl, rfl, rfl, rfl, rfl, rfl⟩

end Sys2Proof.Machine

/-! The family of 40_lzw_datapath.md: the dictionary's operations, the width check, what each pixel does, and the
independence of sessions. -/

namespace Sys2Proof.Machine

variable {s t : State}

/-! The dictionary as a map after `DictInit` and `InsertEntry` (R54, R59). -/

theorem Dict.find_eq_none {d : Dict} {str : List Byte} : d.find str = none ↔ ¬ d.has str = true := by
  simp [Dict.has]

/-- A single symbol's code is its own number (R54). -/
theorem Dict.find_singles {n : Nat} {b : Byte} (hn : n ≤ 256) (hb : b.toNat < n) :
    (Dict.singles n).find [b] = some b.toNat := by
  obtain ⟨c, hc⟩ := Dict.find_of_has ((Dict.has_singles hn).2 ⟨b, rfl, hb⟩)
  obtain ⟨k, hk, he⟩ := List.mem_map.1 (Dict.mem_of_find hc)
  have hkn := List.mem_range.1 hk
  obtain ⟨hkey, rfl⟩ := Prod.mk.inj he
  obtain ⟨rfl, -⟩ := List.cons.inj hkey
  rw [hc, BitVec.toNat_ofNat, Nat.mod_eq_of_lt (by omega)]

theorem dictInit_eq (m : Nat) (s : State) :
    dictInit m s = { s with dict := Dict.singles (2 ^ m), next := 2 ^ m + 2, width := m + 1 } := rfl

theorem insertEntry_eq (str : List Byte) (s : State) :
    insertEntry str s = { s with dict := s.dict ++ [(str, s.next)], next := s.next + 1 } := rfl

/-! The width check, and the operations that rest on it (R56, R57). -/

theorem widthCheck_eq (s : State) : widthCheck s =
    { s with width := if 2 ^ s.width ≤ s.next ∧ s.width < 12 then s.width + 1 else s.width } := by
  rcases widthCheck_cases s with ⟨h, hraise⟩ | ⟨h, hkeep⟩
  · rw [h]; exact congrArg (s.setWidth ·) (if_pos hraise).symm
  · rw [h]; exact congrArg (s.setWidth ·) (if_neg hkeep).symm

theorem emitData_eq (c : Nat) (s : State) : emitData c s =
    { putCode c s.width s with
      width := if 2 ^ s.width ≤ s.next ∧ s.width < 12 then s.width + 1 else s.width } := by
  rw [emitData, widthCheck_eq, putCode_next, putCode_width, ← putCode_next s c s.width]

theorem widthCheck_of_width_max (hw : s.width = 12) : widthCheck s = s :=
  if_neg fun h => absurd h.2 (Nat.not_lt.2 hw.ge)

theorem emitData_of_width_max (c : Nat) (hw : s.width = 12) : emitData c s = putCode c 12 s := by
  rw [emitData, widthCheck_of_width_max (by rw [putCode_width, hw]), hw]

theorem growOrReset_of_lt {str : List Byte} (h : s.next < 4096) : growOrReset str s = insertEntry str s := if_pos h

theorem growOrReset_of_full {str : List Byte} (h : s.next = 4096) : growOrReset str s = tableReset s :=
  if_neg (Nat.not_lt.2 h.ge)

/-! What a legal pixel does, by what it finds in the dictionary (R55, R73). -/

theorem exec_pixel_of_legal {v : Nat} (ha : s.phase = .active) (hv : v < 2 ^ s.mcs) :
    exec (.pixel v) s = lzwPixel v s := by
  change execPixel v s = _
  simp only [execPixel, ha]
  exact if_pos ((pixelLegal_iff v s).2 hv)

theorem exec_pixel_of_illegal {v : Nat} (ha : s.phase = .active) (hv : ¬ v < 2 ^ s.mcs) :
    exec (.pixel v) s = .next (raiseError .pixelRange s) := by
  change execPixel v s = _
  simp only [execPixel, ha]
  exact if_neg (mt (pixelLegal_iff v s).1 hv)

theorem emitPrefix_of_find {c : Nat} (hc : s.dict.find s.p = some c) : emitPrefix s = .next (emitData c s) := by
  simp only [emitPrefix, hc]

section
variable {v : Nat}

theorem lzwPixel_of_first (hp : s.p = []) : lzwPixel v s = .next (s.setP [operandByte v]) := if_pos hp

theorem lzwPixel_of_extends (hp : s.p ≠ []) (hk : s.dict.has (s.p ++ [operandByte v]) = true) :
    lzwPixel v s = .next (s.setP (s.p ++ [operandByte v])) :=
  (if_neg hp).trans (if_pos hk)

theorem lzwPixel_of_breaks {c : Nat} (hp : s.p ≠ []) (hn : s.dict.has (s.p ++ [operandByte v]) = false)
    (hc : s.dict.find s.p = some c) :
    lzwPixel v s =
      .next ((growOrReset (s.p ++ [operandByte v]) (emitData c s)).setP [operandByte v]) := by
  simp only [lzwPixel, if_neg hp, hn, Bool.false_eq_true, if_false, emitPrefix_of_find hc, thenDo]

end

/-! Two sessions side by side (R64). -/

/-- The registers the datapath goes on from; what the bit packer, the framer and the channels hold is blanked. -/
def State.datapath (s : State) : State :=
  { s with err := .noError, acc := 0, acclen := 0, sbbuf := [], sbcnt := 0, out := [], inputs := [] }

theorem putCode_datapath (c w : Nat) (s : State) : (putCode c w s).datapath = s.datapath := by
  simp [State.datapath]

/-- An operation of the datapath: what it writes rests on the datapath's registers, and it writes no other. -/
structure OnDatapath (f : State → State) : Prop where
  datapath : ∀ u, (f u).datapath = f u.datapath
  acc : ∀ u, (f u).acc = u.acc
  acclen : ∀ u, (f u).acclen = u.acclen
  sbbuf : ∀ u, (f u).sbbuf = u.sbbuf
  sbcnt : ∀ u, (f u).sbcnt = u.sbcnt
  out : ∀ u, (f u).out = u.out

theorem onDatapath_widthCheck : OnDatapath widthCheck :=
  ⟨fun _ => by rw [widthCheck_eq, widthCheck_eq]; rfl, widthCheck_acc, widthCheck_acclen, widthCheck_sbbuf,
    widthCheck_sbcnt, widthCheck_out⟩

theorem onDatapath_insertEntry (str : List Byte) : OnDatapath (insertEntry str) :=
  ⟨fun _ => rfl, insertEntry_acc str, insertEntry_acclen str, insertEntry_sbbuf str, insertEntry_sbcnt str,
    insertEntry_out str⟩

theorem onDatapath_dictInit (m : Nat) : OnDatapath (dictInit m) :=
  ⟨fun _ => rfl, dictInit_acc m, dictInit_acclen m, dictInit_sbbuf m, dictInit_sbcnt m, dictInit_out m⟩

theorem onDatapath_setP (q : List Byte) : OnDatapath (State.setP q) :=
  ⟨fun _ => rfl, fun _ => rfl, fun _ => rfl, fun _ => rfl, fun _ => rfl, fun _ => rfl⟩

/-- Two states of open sessions that agree in all a session goes on from: the datapath's registers, and the bits written
since `base` and `base'`, the outputs the sessions started at. -/
structure Alike (base base' : List Byte) (s s' : State) : Prop where
  datapath : s'.datapath = s.datapath
  stream : ∃ V B, Streamed base [] V B s ∧ Streamed base' [] V B s'

/-- Two runs end in the same phase, and after `base` and `base'` have appended the same bytes. -/
def EndAlike (base base' : List Byte) (o o' : Host.Outcome State Fault Refusal) : Prop :=
  ∃ t t' bs, o = .next t ∧ o' = .next t' ∧ t'.phase = t.phase ∧ t.out = base ++ bs ∧ t'.out = base' ++ bs

/-- Bytes that both outputs start with count as appended. -/
theorem EndAlike.of_append {base base' l : List Byte} {o o' : Host.Outcome State Fault Refusal}
    (h : EndAlike (base ++ l) (base' ++ l) o o') : EndAlike base base' o o' := by
  obtain ⟨t, t', bs, ht, ht', hphase, hout, hout'⟩ := h
  exact ⟨t, t', l ++ bs, ht, ht', hphase, by rw [hout, List.append_assoc], by rw [hout', List.append_assoc]⟩

section
variable {base base' : List Byte} {s' : State}

theorem Alike.phase (h : Alike base base' s s') : s'.phase = s.phase := congrArg (·.phase) h.datapath
theorem Alike.mcs (h : Alike base base' s s') : s'.mcs = s.mcs := congrArg (·.mcs) h.datapath
theorem Alike.width (h : Alike base base' s s') : s'.width = s.width := congrArg (·.width) h.datapath
theorem Alike.next (h : Alike base base' s s') : s'.next = s.next := congrArg (·.next) h.datapath
theorem Alike.dict (h : Alike base base' s s') : s'.dict = s.dict := congrArg (·.dict) h.datapath
theorem Alike.p (h : Alike base base' s s') : s'.p = s.p := congrArg (·.p) h.datapath
theorem Alike.cfg (h : Alike base base' s s') : s'.cfg = s.cfg := congrArg (·.cfg) h.datapath

/-! Each operation of a session keeps two states alike. -/

theorem Alike.putCode {c w : Nat} (h : Alike base base' s s') (hc : c < 2 ^ w) :
    Alike base base' (putCode c w s) (putCode c w s') := by
  obtain ⟨V, B, hs, hs'⟩ := h.stream
  exact ⟨by rw [putCode_datapath, putCode_datapath, h.datapath], _, _, hs.put hc, hs'.put hc⟩

theorem Alike.map {f : State → State} (h : Alike base base' s s') (hf : OnDatapath f) :
    Alike base base' (f s) (f s') := by
  obtain ⟨V, B, hs, hs'⟩ := h.stream
  have keeps : ∀ {b u}, Streamed b [] V B u → Streamed b [] V B (f u) := fun hu =>
    hu.congr (hf.acc _) (hf.acclen _) (hf.sbbuf _) (hf.sbcnt _) (hf.out _)
  exact ⟨by rw [hf.datapath, hf.datapath, h.datapath], V, B, keeps hs, keeps hs'⟩

theorem Alike.setP (q : List Byte) (h : Alike base base' s s') : Alike base base' (s.setP q) (s'.setP q) :=
  h.map (onDatapath_setP q)

/-- A data code (R56). -/
theorem Alike.emitData {c : Nat} (h : Alike base base' s s') (hs : s.Coding) (hc : c < s.next) :
    Alike base base' (emitData c s) (emitData c s') := by
  have hfits := hs.epoch.next_fits hs.width
  unfold Machine.emitData
  rw [h.width]
  exact (h.putCode (by omega)).map onDatapath_widthCheck

/-- `CLEAR` or `EOI` (R60, R62). -/
theorem Alike.putReserved {c : Nat} (h : Alike base base' s s') (hr : s.Ready) (hc : c ≤ eoiCode s) :
    Alike base base' (Machine.putCode c s.width s) (Machine.putCode c s.width s') :=
  h.putCode (hc.trans_lt (two_pow_succ_lt hr.epoch.mcsRange.1 hr.width))

theorem Alike.growOrReset (str : List Byte) (h : Alike base base' s s') (hr : s.Ready) :
    Alike base base' (growOrReset str s) (growOrReset str s') := by
  unfold Machine.growOrReset
  rw [h.next]
  split
  · exact h.map (onDatapath_insertEntry str)
  · unfold tableReset clearCode alphabetSize
    rw [h.mcs, h.width]
    exact (h.putReserved hr (Nat.le_succ (clearCode s))).map (onDatapath_dictInit s.mcs)

theorem Alike.writeEoi (h : Alike base base' s s') (hr : s.Ready) :
    Alike base base' (writeEoi s) (writeEoi s') := by
  unfold Machine.writeEoi eoiCode alphabetSize
  rw [h.cfg, h.mcs, h.width]
  split
  · exact h.putReserved hr le_rfl
  · exact h

/-- A legal pixel takes the same case of R55 in both. -/
theorem Alike.lzwPixel {v : Nat} (h : Alike base base' s s') (hs : s.Coding) (ht : lzwPixel v s = .next t) :
    ∃ t', lzwPixel v s' = .next t' ∧ Alike base base' t t' := by
  rcases lzwPixel_next ht with ⟨hp, rfl⟩ | ⟨hp, hk, rfl⟩ | ⟨c, hp, hn, hc, rfl⟩
  · exact ⟨_, lzwPixel_of_first (h.p.trans hp), h.setP _⟩
  · rw [← h.p] at hp hk ⊢
    rw [← h.dict] at hk
    exact ⟨_, lzwPixel_of_extends hp hk, h.setP _⟩
  · have hlt := hs.epoch.find_lt hc
    have hg := ((h.emitData hs hlt).growOrReset (s.p ++ [operandByte v]) (hs.emitData_ready hlt)).setP [operandByte v]
    rw [← h.p] at hp hn hc hg ⊢
    rw [← h.dict] at hn hc
    exact ⟨_, lzwPixel_of_breaks hp hn hc, hg⟩

/-- The last codes of both sessions (R62). -/
theorem Alike.lzwFinish (h : Alike base base' s s') (hs : s.Coding) (ht : lzwFinish s = .next t) :
    ∃ t', lzwFinish s' = .next t' ∧ Alike base base' t t' := by
  unfold Machine.lzwFinish
  rcases lzwFinish_next ht with ⟨hp, rfl⟩ | ⟨c, hp, hc, rfl⟩
  · rw [if_pos (h.p.trans hp)]
    exact ⟨_, rfl, (h.writeEoi hs.ready).setP []⟩
  · have hlt := hs.epoch.find_lt hc
    rw [if_neg (h.p.trans_ne hp), emitPrefix_of_find (by rw [h.dict, h.p, hc])]
    exact ⟨_, rfl, ((h.emitData hs hlt).writeEoi (hs.emitData_ready hlt)).setP []⟩

/-- The bits written decide the bytes that leave where the sessions close (R67, R68). -/
theorem Alike.closeSession (h : Alike base base' s s') :
    EndAlike base base' (.next (Machine.closeSession s)) (.next (Machine.closeSession s')) := by
  obtain ⟨V, B, hs, hs'⟩ := h.stream
  exact ⟨_, _, _, rfl, rfl, rfl, (flushFrame_sliced hs.flush).trans (List.append_assoc _ _ _),
    (flushFrame_sliced hs'.flush).trans (List.append_assoc _ _ _)⟩

/-- While the sessions are open, the same bytes have left (R66). -/
theorem Alike.raiseError (h : Alike base base' s s') (e : ErrCode) :
    EndAlike base base' (.next (Machine.raiseError e s)) (.next (Machine.raiseError e s')) := by
  obtain ⟨V, B, hs, hs'⟩ := h.stream
  exact ⟨_, _, _, rfl, rfl, rfl, hs.sl.2.2, hs'.sl.2.2⟩

end

/-! Whole sessions. -/

theorem runInstrs_cons {i : Instr} (rest : List Instr) (h : exec i s = .next t) :
    runInstrs (i :: rest) s = runInstrs rest t := by
  simp only [runInstrs, h]

/-- In `ERROR` the rest of a session is ignored (R89). -/
theorem exec_of_error {i : Instr} (he : s.phase = .error) (hi : i ≠ .reset) : exec i s = .next s := by
  cases i with
  | nop => rfl
  | start m => change execStart m s = _; simp only [execStart, he]
  | pixel v => change execPixel v s = _; simp only [execPixel, he]
  | endCmd => change execEnd s = _; simp only [execEnd, he]
  | reset => contradiction

theorem runInstrs_of_error {is : List Instr} (he : s.phase = .error) (hi : .reset ∉ is) :
    runInstrs is s = .next s := by
  induction is with
  | nil => rfl
  | cons i is ih =>
    rw [List.mem_cons, not_or] at hi
    rw [runInstrs_cons is (exec_of_error he (Ne.symm hi.1)), ih hi.2]

theorem exec_end_of_active (ha : s.phase = .active) : exec .endCmd s = thenDo (lzwFinish s) closeSession := by
  change execEnd s = _
  simp only [execEnd, ha]

/-- The commands of a session after `START`. -/
def pixelsThenEnd (pixels : List Byte) : List Instr := (pixels.map fun v => .pixel v.toNat) ++ [.endCmd]

theorem sessionInstrs_eq (m : Nat) (pixels : List Byte) :
    sessionInstrs m pixels = .start m :: pixelsThenEnd pixels := rfl

theorem reset_not_mem_pixelsThenEnd (pixels : List Byte) : .reset ∉ pixelsThenEnd pixels := by
  simp [pixelsThenEnd]

/-- Open sessions that are alike end alike: by induction over the pixels that are left. -/
theorem Alike.runInstrs {base base' : List Byte} {s' : State} {pixels : List Byte} (h : Alike base base' s s')
    (hs : s.Inv) (ha : s.phase = .active) :
    EndAlike base base' (runInstrs (pixelsThenEnd pixels) s) (runInstrs (pixelsThenEnd pixels) s') := by
  have ha' := h.phase.trans ha
  induction pixels generalizing s s' with
  | nil =>
    obtain ⟨u, hu⟩ := hs.lzwFinish_completes
    obtain ⟨u', hu', hend⟩ := h.lzwFinish (hs.coding ha) hu
    have hx : exec .endCmd s = .next (Machine.closeSession u) := by rw [exec_end_of_active ha, hu]; rfl
    have hx' : exec .endCmd s' = .next (Machine.closeSession u') := by rw [exec_end_of_active ha', hu']; rfl
    rw [pixelsThenEnd, List.map_nil, List.nil_append, runInstrs_cons _ hx, runInstrs_cons _ hx']
    exact hend.closeSession
  | cons v rest ih =>
    change EndAlike base base' (Machine.runInstrs (.pixel v.toNat :: pixelsThenEnd rest) s)
      (Machine.runInstrs (.pixel v.toNat :: pixelsThenEnd rest) s')
    by_cases hv : v.toNat < 2 ^ s.mcs
    · obtain ⟨u, hu⟩ := hs.lzwPixel_completes v.toNat
      obtain ⟨u', hu', halike⟩ := h.lzwPixel (hs.coding ha) hu
      have hphase := (lzwPixel_frame hu).1.trans ha
      rw [runInstrs_cons _ ((exec_pixel_of_legal ha hv).trans hu),
        runInstrs_cons _ ((exec_pixel_of_legal ha' (h.mcs ▸ hv)).trans hu')]
      exact ih halike (lzwPixel_inv hs ha hv hu) hphase (halike.phase.trans hphase)
    · rw [runInstrs_cons _ (exec_pixel_of_illegal ha hv), runInstrs_cons _ (exec_pixel_of_illegal ha' (h.mcs ▸ hv)),
        runInstrs_of_error rfl (reset_not_mem_pixelsThenEnd rest),
        runInstrs_of_error rfl (reset_not_mem_pixelsThenEnd rest)]
      exact h.raiseError .pixelRange

/-- `START` makes two states between sessions alike, whatever came before (R64, R72). -/
theorem openSession_alike {m : Nat} {s' : State} (hs : s.Inv) (hs' : s'.Inv) (hc : s.cfg = s'.cfg) :
    Alike (s.out ++ [BitVec.ofNat 8 m]) (s'.out ++ [BitVec.ofNat 8 m]) (openSession m s) (openSession m s') := by
  have header : ∀ u : State, u.Inv → Streamed (u.out ++ [BitVec.ofNat 8 m]) [] 0 0 (headerSent m u) := fun u hu =>
    streamed_self (s := headerSent m u) ⟨Nat.zero_le 254, hu.framer.2⟩ ⟨Nat.zero_le 7, Nat.one_pos⟩
  have hclear : 2 ^ m < 2 ^ (m + 1) := Nat.pow_lt_pow_right (by decide) (by omega)
  refine ⟨?_, _, _, ((header s hs).put hclear).congr rfl rfl rfl rfl rfl,
    ((header s' hs').put hclear).congr rfl rfl rfl rfl rfl⟩
  rw [openSession_eq, openSession_eq]
  simp [State.datapath, headerSent, hc]

theorem exec_start_of_legal {m : Nat} (hi : s.phase = .idle) (hm : 2 ≤ m ∧ m ≤ 8) :
    exec (.start m) s = .next (openSession m s) := by
  change execStart m s = _
  simp only [execStart, hi]
  exact if_pos ((mcsLegal_iff m).2 hm)

theorem exec_start_of_illegal {m : Nat} (hi : s.phase = .idle) (hm : ¬ (2 ≤ m ∧ m ≤ 8)) :
    exec (.start m) s = .next (raiseError .badMcs s) := by
  change execStart m s = _
  simp only [execStart, hi]
  exact if_neg (mt (mcsLegal_iff m).1 hm)

/-! The obligations. -/

/-- Settles O25: a string of one symbol below `N` has its number; no other is a key. -/
theorem dictInitLeavesTheSingleSymbols : Obligations.DictInitLeavesTheSingleSymbols := by
  intro s m _ h8
  have hn := two_pow_mcs_le h8
  refine ⟨fun str => ?_, rfl⟩
  rw [dictInit_dict]
  match str with
  | [] => exact Dict.find_eq_none.2 (by simp [Dict.has_singles hn])
  | [b] =>
    by_cases hb : b.toNat < 2 ^ m
    · exact (Dict.find_singles hn hb).trans (if_pos hb).symm
    · exact (Dict.find_eq_none.2 (by simpa [Dict.has_singles hn] using hb)).trans (if_neg hb).symm
  | _ :: _ :: _ => exact Dict.find_eq_none.2 (by simp [Dict.has_singles hn])

/-- Settles O26, by what a read after an insert returns. -/
theorem insertEntryAddsOneString : Obligations.InsertEntryAddsOneString := by
  refine fun s str hn _ => ⟨fun q => ?_, rfl⟩
  rw [insertEntry_dict]
  by_cases hq : q = str
  · rw [if_pos hq, hq, Dict.find_insert_self hn]
  · rw [if_neg hq, Dict.find_insert_of_ne hq]

/-- Settles O27: under R28 item 4 `NEXT` is at most `2^WIDTH`, so reaching it is meeting it. -/
theorem widthCheckRaisesAtThePowerOfTwo : Obligations.WidthCheckRaisesAtThePowerOfTwo := by
  intro s h ha
  have hc := h.coding ha
  have hfits := hc.epoch.next_fits hc.width
  rcases widthCheck_cases s with ⟨h, hge, hlt⟩ | ⟨h, hkeep⟩
  · rw [h, if_pos ⟨by omega, hlt⟩]; rfl
  · rw [h, if_neg fun hc => hkeep ⟨hc.1.ge, hc.2⟩]

/-- Settles O19: the two cases of R55 that write no code. -/
theorem pixelsThatWriteNoCode : Obligations.PixelsThatWriteNoCode := by
  refine ⟨fun s v ha hv hp => ?_, fun s v ha hv hp hk => ?_⟩
  · rw [exec_pixel_of_legal ha hv, lzwPixel_of_first hp]; rfl
  · rw [exec_pixel_of_legal ha hv, lzwPixel_of_extends hp hk]; rfl

/-- Settles O20: the match breaks with codes left, so the novel string is inserted. -/
theorem breakingPixelInsertsTheString : Obligations.BreakingPixelInsertsTheString := by
  intro s v c ha hv hp hn hc hnext
  rw [exec_pixel_of_legal ha hv, lzwPixel_of_breaks hp hn hc, growOrReset_of_lt (by rwa [emitData_next]),
    insertEntry_eq, emitData_next, emitData_dict, emitData_eq]
  rfl

/-- Settles O21: the match breaks with no code left, so the table is reset at 12 bits. -/
theorem breakingPixelResetsTheFullTable : Obligations.BreakingPixelResetsTheFullTable := by
  intro s v c ha hv hp hn hc hnext hw
  rw [exec_pixel_of_legal ha hv, lzwPixel_of_breaks hp hn hc, growOrReset_of_full (by rwa [emitData_next]),
    tableReset, dictInit_eq, emitData_of_width_max c hw, clearCode, alphabetSize, putCode_mcs, putCode_width, hw]
  rfl

/-- Settles O39: a legal `START` makes the states alike and the session keeps them so; an illegal one leaves both in
`ERROR` with nothing appended. -/
theorem sessionsAreIndependent : Obligations.SessionsAreIndependent := by
  intro s s' m pixels hs hs' hi hi' hc
  change EndAlike s.out s'.out _ _
  rw [sessionInstrs_eq]
  by_cases hm : 2 ≤ m ∧ m ≤ 8
  · rw [runInstrs_cons _ (exec_start_of_legal hi hm), runInstrs_cons _ (exec_start_of_legal hi' hm)]
    exact ((openSession_alike hs hs' hc).runInstrs (openSession_inv hs hi hm) rfl).of_append
  · rw [runInstrs_cons _ (exec_start_of_illegal hi hm), runInstrs_cons _ (exec_start_of_illegal hi' hm),
      runInstrs_of_error rfl (reset_not_mem_pixelsThenEnd pixels),
      runInstrs_of_error rfl (reset_not_mem_pixelsThenEnd pixels)]
    exact ⟨_, _, [], rfl, rfl, rfl, (List.append_nil _).symm, (List.append_nil _).symm⟩

end Sys2Proof.Machine

/-! The family of 41_bitpacker_framer.md: the framer's and the packer's operations, and the closed form of a session's
output. -/

namespace Sys2Proof.Machine

variable {s t : State}

/-! `RawByte` below and at the 255th byte (R66). -/

theorem bufferByte_eq (b : Byte) (s : State) :
    bufferByte b s = { s with sbbuf := s.sbbuf.set s.sbcnt b, sbcnt := s.sbcnt + 1 } := rfl

theorem emitSubBlock_eq (s : State) :
    emitSubBlock s = { s with sbcnt := 0, out := s.out ++ BitVec.ofNat 8 s.sbcnt :: pending s } := by
  ext1 <;> simp

theorem rawByte_of_lt {b : Byte} (h : s.sbcnt < 254) : rawByte b s = bufferByte b s :=
  if_neg fun hfull : s.sbcnt + 1 = 255 => by omega

theorem rawByte_of_full {b : Byte} (h : s.sbcnt = 254) : rawByte b s = emitSubBlock (bufferByte b s) :=
  if_pos (by rw [bufferByte_sbcnt, h]; rfl)

/-! `PutCode` writes the packer's and the framer's registers and the output, and no other (R65). -/

theorem putCode_eq (c w : Nat) (s : State) : putCode c w s =
    { s with acc := (putCode c w s).acc, acclen := (putCode c w s).acclen, sbbuf := (putCode c w s).sbbuf,
             sbcnt := (putCode c w s).sbcnt, out := (putCode c w s).out } := by
  ext1 <;> simp

/-! The codes an open session has written (R36, R70). -/

/-- The codes written since no bit was held and no byte pending, with `base` on the output: the bits are those of the
one integer of R70. -/
def Written (base : List Byte) (codes : List (Nat × Nat)) (s : State) : Prop :=
  Streamed base [] (streamValue codes) (bitTotal codes) s

section
variable {base : List Byte} {codes : List (Nat × Nat)}

theorem Written.putCode {c w : Nat} (h : Written base codes s) (hc : c < 2 ^ w) :
    Written base (codes ++ [(c, w)]) (putCode c w s) := by
  unfold Written
  rw [streamValue_append, bitTotal_append]
  exact Streamed.put h hc

theorem Written.map {f : State → State} (h : Written base codes s) (hf : OnDatapath f) : Written base codes (f s) :=
  Streamed.congr h (hf.acc s) (hf.acclen s) (hf.sbbuf s) (hf.sbcnt s) (hf.out s)

theorem Written.setP (h : Written base codes s) (q : List Byte) : Written base codes (s.setP q) :=
  h.map (onDatapath_setP q)

/-- A data code (R56). -/
theorem Written.emitData {c : Nat} (h : Written base codes s) (hs : s.Coding) (hc : c < s.next) :
    Written base (codes ++ [(c, s.width)]) (emitData c s) := by
  have hfits := hs.epoch.next_fits hs.width
  exact (h.putCode (by omega)).map onDatapath_widthCheck

/-- `CLEAR` or `EOI` (R60, R62). -/
theorem Written.putReserved {c : Nat} (h : Written base codes s) (hr : s.Ready) (hc : c ≤ eoiCode s) :
    Written base (codes ++ [(c, s.width)]) (Machine.putCode c s.width s) :=
  h.putCode (hc.trans_lt (two_pow_succ_lt hr.epoch.mcsRange.1 hr.width))

theorem Written.tableReset (h : Written base codes s) (hr : s.Ready) :
    Written base (codes ++ [(2 ^ s.mcs, s.width)]) (tableReset s) :=
  (h.putReserved hr (Nat.le_succ (clearCode s))).map (onDatapath_dictInit s.mcs)

theorem Written.writeEoi (h : Written base codes s) (hr : s.Ready) :
    Written base (codes ++ if s.cfg.emitEoi then [(2 ^ s.mcs + 1, s.width)] else []) (writeEoi s) := by
  unfold Machine.writeEoi
  split
  · exact h.putReserved hr le_rfl
  · rwa [List.append_nil]

/-- Where the session closes, the raw bytes of the codes leave as sub-blocks with the terminator after them (R70). -/
theorem Written.closeSession_out (h : Written base codes s) :
    (closeSession s).out = base ++ subBlocks (rawBytes codes) ++ [0x00#8] :=
  flushFrame_sliced h.flush

end

/-- `START` before its opening `CLEAR` has written no code. -/
theorem headerSent_written {m : Nat} (hb : s.sbbuf.length = maxSubblock) :
    Written (s.out ++ [BitVec.ofNat 8 m]) [] (headerSent m s) :=
  streamed_self (s := headerSent m s) ⟨Nat.zero_le 254, hb⟩ ⟨Nat.zero_le 7, Nat.one_pos⟩

/-- The one code `START` writes (R72). -/
theorem openSession_written {m : Nat} (hb : s.sbbuf.length = maxSubblock) :
    Written (s.out ++ [BitVec.ofNat 8 m]) [(2 ^ m, m + 1)] (openSession m s) :=
  ((headerSent_written hb).putCode (Nat.pow_lt_pow_right (by decide) (Nat.lt_succ_self m))).congr rfl rfl rfl rfl rfl

/-! The registers by the number `k` of data codes the epoch has written (R58). -/

/-- `NEXT` counts the epoch's data codes: the `k`-th inserted code `N + 1 + k`. -/
def EpochCount (k : Nat) (s : State) : Prop := s.next = 2 ^ s.mcs + 2 + k

section
variable {k : Nat}

theorem EpochCount.next_eq (h : EpochCount k s) : s.next = 2 ^ s.mcs + (k + 2) := by
  rw [h, Nat.add_assoc, Nat.add_comm 2]

/-- The width of the next data code (R58). -/
theorem EpochCount.width (h : EpochCount k s) (hs : s.Coding) : s.width = dataWidth (2 ^ s.mcs) (k + 1) := by
  have hcount : s.next - 1 = 2 ^ s.mcs + (k + 1) := by rw [h.next_eq]; rfl
  rw [hs.width, hcount, dataWidth]

theorem State.Epoch.space_or_full (h : s.Epoch) : s.next < 4096 ∨ s.next = 4096 := h.nextRange.2.lt_or_eq

theorem State.Coding.width_of_full (h : s.Coding) (hfull : s.next = 4096) : s.width = 12 := by
  rw [h.width, hfull]
  decide

/-- The width a data code leaves for the code after it, with the table full or not (R57, R58). -/
theorem EpochCount.emitData_width (h : EpochCount k s) (hs : s.Coding) (c : Nat) :
    (emitData c s).width = dataWidth (2 ^ s.mcs) (k + 2) := by
  rw [dataWidth, ← h.next_eq]
  rcases hs.epoch.space_or_full with hspace | hfull
  · rw [emitData_eq]
    exact width_step ((Nat.le_add_left 2 _).trans hs.epoch.nextRange.1) hs.width hspace
  · have hw := hs.width_of_full hfull
    rw [emitData_of_width_max c hw, putCode_width, hw, hfull]
    decide

theorem EpochCount.lt_iff (h : EpochCount k s) : s.next < 4096 ↔ k + 1 < 4095 - 2 ^ s.mcs := by
  unfold EpochCount at h
  omega

end

/-! The longest match of the closed form, one equation a case of R55. -/

section
variable {eoi : Bool} {m k c : Nat} {d : Dict} {str : List Byte} {v : Byte} {rest : List Byte}

theorem laterCodes_first : laterCodes eoi m (v :: rest) k d [] = laterCodes eoi m rest k d [v] := by
  rw [laterCodes, if_pos rfl]

theorem laterCodes_extends (hp : str ≠ []) (hk : d.has (str ++ [v]) = true) :
    laterCodes eoi m (v :: rest) k d str = laterCodes eoi m rest k d (str ++ [v]) := by
  rw [laterCodes, if_neg hp, if_pos hk]

theorem laterCodes_grows (hp : str ≠ []) (hn : d.has (str ++ [v]) = false) (hc : d.find str = some c)
    (hspace : k + 1 < 4095 - 2 ^ m) :
    laterCodes eoi m (v :: rest) k d str = [(c, dataWidth (2 ^ m) (k + 1))] ++
      laterCodes eoi m rest (k + 1) (d.insert (str ++ [v]) (2 ^ m + 1 + (k + 1))) [v] := by
  rw [laterCodes, if_neg hp, hn, if_neg Bool.false_ne_true, if_pos hspace, hc]
  rfl

theorem laterCodes_resets (hp : str ≠ []) (hn : d.has (str ++ [v]) = false) (hc : d.find str = some c)
    (hfull : ¬ k + 1 < 4095 - 2 ^ m) :
    laterCodes eoi m (v :: rest) k d str = [(c, dataWidth (2 ^ m) (k + 1)), (2 ^ m, maxCodeWidth)] ++
      laterCodes eoi m rest 0 (Dict.singles (2 ^ m)) [v] := by
  rw [laterCodes, if_neg hp, hn, if_neg Bool.false_ne_true, if_neg hfull, hc]
  rfl

theorem laterCodes_end_empty : laterCodes eoi m [] k d [] =
    if eoi then [(2 ^ m + 1, dataWidth (2 ^ m) (k + 1))] else [] := by
  rw [laterCodes, if_pos rfl]
  rfl

theorem laterCodes_end_pending (hp : str ≠ []) (hc : d.find str = some c) : laterCodes eoi m [] k d str =
    [(c, dataWidth (2 ^ m) (k + 1))] ++ if eoi then [(2 ^ m + 1, dataWidth (2 ^ m) (k + 2))] else [] := by
  rw [laterCodes, if_neg hp, hc]
  rfl

end

/-! The session against the closed form. -/

section
variable {base : List Byte} {codes : List (Nat × Nat)} {k : Nat}

/-- A legal pixel writes the codes with which the closed form goes on, and leaves the registers the closed form's state
for the pixels after it. -/
theorem Written.lzwPixel {v : Byte} (h : Written base codes s) (hk : EpochCount k s) (hs : s.Coding)
    (ht : lzwPixel v.toNat s = .next t) :
    ∃ new k', Written base (codes ++ new) t ∧ EpochCount k' t ∧ ∀ eoi rest,
      laterCodes eoi s.mcs (v :: rest) k s.dict s.p = new ++ laterCodes eoi s.mcs rest k' t.dict t.p := by
  have hsym : operandByte v.toNat = v := by simp [operandByte]
  have hcases := lzwPixel_next ht
  rw [hsym] at hcases
  rcases hcases with ⟨hp, rfl⟩ | ⟨hp, hext, rfl⟩ | ⟨c, hp, hn, hc, rfl⟩
  · refine ⟨[], k, by rw [List.append_nil]; exact h.setP [v], hk, fun eoi rest => ?_⟩
    rw [hp, laterCodes_first]
    rfl
  · exact ⟨[], k, by rw [List.append_nil]; exact h.setP _, hk, fun eoi rest => laterCodes_extends hp hext⟩
  · have hlt := hs.epoch.find_lt hc
    have hdata := h.emitData hs hlt
    rcases hs.epoch.space_or_full with hspace | hfull
    · rw [growOrReset_of_lt (by rwa [emitData_next])]
      refine ⟨_, k + 1, (hdata.map (onDatapath_insertEntry _)).setP [v], ?_, fun eoi rest => ?_⟩
      · simp only [EpochCount, State.setP_next, State.setP_mcs, insertEntry_next, insertEntry_mcs, emitData_next,
          emitData_mcs]
        rw [hk, Nat.add_assoc]
      · have hcode : 2 ^ s.mcs + 1 + (k + 1) = s.next := by rw [hk]; omega
        rw [laterCodes_grows hp hn hc (hk.lt_iff.1 hspace), hk.width hs, hcode]
        simp only [State.setP_dict, State.setP_p, insertEntry_dict, emitData_dict, emitData_next]
    · rw [growOrReset_of_full (by rwa [emitData_next])]
      have hreset := hdata.tableReset (hs.emitData_ready hlt)
      have hw := hs.width_of_full hfull
      rw [emitData_mcs, emitData_of_width_max c hw, putCode_width, hw, List.append_assoc] at hreset
      rw [emitData_of_width_max c hw]
      refine ⟨_, 0, hreset.setP [v], ?_, fun eoi rest => ?_⟩
      · simp [EpochCount, Machine.tableReset]
      · rw [laterCodes_resets hp hn hc (mt hk.lt_iff.2 hfull.not_lt), ← hk.width hs, hw]
        simp [Machine.tableReset, maxCodeWidth]

/-- The end of the session writes the closed form's last codes (R62). -/
theorem Written.lzwFinish (h : Written base codes s) (hk : EpochCount k s) (hs : s.Coding)
    (ht : lzwFinish s = .next t) :
    Written base (codes ++ laterCodes s.cfg.emitEoi s.mcs [] k s.dict s.p) t := by
  rcases lzwFinish_next ht with ⟨hp, rfl⟩ | ⟨c, hp, hc, rfl⟩
  · rw [hp, laterCodes_end_empty, ← hk.width hs]
    exact (h.writeEoi hs.ready).setP []
  · have hlt := hs.epoch.find_lt hc
    have heoi := (h.emitData hs hlt).writeEoi (hs.emitData_ready hlt)
    rw [emitData_cfg, emitData_mcs, hk.emitData_width hs, List.append_assoc] at heoi
    rw [laterCodes_end_pending hp hc, ← hk.width hs]
    exact heoi.setP []

/-- An open session runs to its end and writes the codes of the closed form: by induction over the pixels that are left.
-/
theorem Written.runInstrs {pixels : List Byte} (h : Written base codes s) (hk : EpochCount k s) (hs : s.Inv)
    (ha : s.phase = .active) (hv : ∀ v ∈ pixels, v.toNat < 2 ^ s.mcs) :
    ∃ t, runInstrs (pixelsThenEnd pixels) s = .next t ∧ t.phase = .idle ∧ t.err = .noError ∧ t.mcs = s.mcs ∧
      t.out = base ++ subBlocks (rawBytes (codes ++ laterCodes s.cfg.emitEoi s.mcs pixels k s.dict s.p)) ++
        [0x00#8] := by
  induction pixels generalizing s codes k with
  | nil =>
    obtain ⟨u, hu⟩ := hs.lzwFinish_completes
    obtain ⟨-, herr, hmcs, -⟩ := lzwFinish_frame hu
    have hx : exec .endCmd s = .next (closeSession u) := by rw [exec_end_of_active ha, hu]; rfl
    refine ⟨closeSession u, runInstrs_cons _ hx, rfl, ?_, ?_, (h.lzwFinish hk (hs.coding ha) hu).closeSession_out⟩
    · simp [closeSession, herr, hs.err_of_ne_error, ha]
    · simp [closeSession, hmcs]
  | cons v rest ih =>
    obtain ⟨hlegal, hrest⟩ := List.forall_mem_cons.1 hv
    obtain ⟨u, hu⟩ := hs.lzwPixel_completes v.toNat
    obtain ⟨hphase, -, hmcs, -, hcfg⟩ := lzwPixel_frame hu
    obtain ⟨new, k', hw, hk', hcodes⟩ := h.lzwPixel hk (hs.coding ha) hu
    obtain ⟨t, ht, hend⟩ := ih hw hk' (lzwPixel_inv hs ha hlegal hu) (hphase.trans ha) (hmcs ▸ hrest)
    rw [hmcs, hcfg, List.append_assoc codes, ← hcodes] at hend
    exact ⟨t, (runInstrs_cons _ ((exec_pixel_of_legal ha hlegal).trans hu)).trans ht, hend⟩

end

/-! The obligations. -/

/-- Settles O38: `START` has written the opening `CLEAR`, and the pixels and `END` go on with the closed form. -/
theorem sessionOutputIsTheClosedForm : Obligations.SessionOutputIsTheClosedForm := by
  intro s m pixels hs hi h2 h8 hv
  have hk : EpochCount 0 (openSession m s) := by simp [EpochCount, openSession]
  have hmcs : (openSession m s).mcs = m := by simp [openSession]
  obtain ⟨t, ht, hphase, herr, hm, hout⟩ := (openSession_written hs.framer.2).runInstrs hk
    (openSession_inv hs hi ⟨h2, h8⟩) rfl (hmcs.symm ▸ hv)
  refine ⟨t, (runInstrs_cons _ (exec_start_of_legal hi ⟨h2, h8⟩)).trans ht, hphase, herr, hm.trans hmcs, ?_⟩
  rw [hout]
  simp [openSession, framed, sessionCodes]

/-- Settles O28: the bytes pending and the bits held are a stream that `putCode_sliced` continues; at most two bytes
join the ones pending, so at most one sub-block leaves. -/
theorem putCodeAppendsTheCodeBits : Obligations.PutCodeAppendsTheCodeBits := by
  intro s c w hlen hacc hcnt hbuf _ hw hc
  have hf : Framed s := ⟨hcnt, hbuf⟩
  have hp : Packed s := ⟨hlen, hacc⟩
  have hf' := putCode_framed c w hf hp
  obtain ⟨hsliced, hlen', hacc'⟩ := putCode_sliced c w (sliced_self hf) hp
  obtain ⟨hpending, hout⟩ := hsliced.joined (by rw [pending_length hf]; exact hcnt)
    (by rw [lowBytes_length]; omega)
  exact ⟨hlen', hacc', (putCode_packed c w hf hp hc).2, hpending, hout, (pending_length hf').symm, hf'.2,
    putCode_eq c w s⟩

/-- Settles O29: the byte is buffered, and the sub-block sent where it is the 255th. -/
theorem rawByteSendsFullSubBlocks : Obligations.RawByteSendsFullSubBlocks := by
  refine fun s b hbuf => ⟨fun hlt => (rawByte_of_lt hlt).trans (bufferByte_eq b s), fun hfull => ?_⟩
  have hf : Framed s := ⟨hfull.le, hbuf⟩
  rw [rawByte_of_full hfull, emitSubBlock_eq, bufferByte_pending b hf, bufferByte_eq, pending, hfull]

end Sys2Proof.Machine

/-! The family of 42_stream_commands.md: what `START`, `PIXEL` and `END` do where they complete, what each command leaves
unchanged, and runs over any sequence of inputs. -/

namespace Sys2Proof.Machine

variable {s t : State}

/-! `PutCode` where it fills no byte or one (R65). -/

theorem packLoop_of_lt (n : Nat) (h : s.acclen < 8) : packLoop n s = s := by
  cases n with
  | zero => rfl
  | succ n => exact if_neg (Nat.not_le.2 h)

theorem packLoop_succ_of_le (n : Nat) (h : 8 ≤ s.acclen) : packLoop (n + 1) s = packLoop n (shiftOut s) := if_pos h

theorem putCode_of_no_byte {c w : Nat} (h : s.acclen + w < 8) : putCode c w s = holdCode c w s :=
  packLoop_of_lt _ h

theorem putCode_of_one_byte {c w : Nat} (h8 : 8 ≤ s.acclen + w) (h16 : s.acclen + w < 16) :
    putCode c w s = shiftOut (holdCode c w s) := by
  have hleft : (shiftOut (holdCode c w s)).acclen = s.acclen + w - 8 := by simp [shiftOut, holdCode]
  obtain ⟨n, hn⟩ := Nat.exists_eq_add_of_le' (Nat.zero_lt_of_lt h8)
  change packLoop (s.acclen + w) (holdCode c w s) = _
  rw [hn, packLoop_succ_of_le n h8, packLoop_of_lt n (by omega)]

theorem shiftOut_eq (h : s.sbcnt < 254) : shiftOut s =
    { s with sbbuf := s.sbbuf.set s.sbcnt (accByte s), sbcnt := s.sbcnt + 1, acc := s.acc >>> 8,
             acclen := s.acclen - 8 } := by
  rw [shiftOut, rawByte_of_lt h]
  rfl

/-- `START` with its opening `CLEAR` held and no byte of it sent yet (R72). -/
theorem holdCode_headerSent (m : Nat) (s : State) : holdCode (2 ^ m) (m + 1) (headerSent m s) =
    { s with mcs := m, width := m + 1, next := 2 ^ m + 2, dict := Dict.singles (2 ^ m), p := [], acc := 2 ^ m,
             acclen := m + 1, sbcnt := 0, out := s.out ++ [BitVec.ofNat 8 m] } := by
  ext1 <;> simp [holdCode, headerSent, operandByte]

/-! What each command leaves unchanged (R72 to R74). -/

/-- A command that is no reset and raises no error leaves `ERR` (R88). -/
theorem exec_err {i : Instr} (h : exec i s = .next t) (hi : i ≠ .reset) (ht : t.phase ≠ .error) : t.err = s.err := by
  cases i with
  | nop => cases h; rfl
  | reset => contradiction
  | start m =>
    rcases execStart_next h with ⟨-, rfl⟩ | ⟨-, rfl⟩ | ⟨-, -, rfl⟩ | ⟨-, -, -, rfl⟩
    · rfl
    · exact absurd rfl ht
    · exact absurd rfl ht
    · simp [openSession]
  | pixel v =>
    rcases execPixel_next h with ⟨-, rfl⟩ | ⟨-, rfl⟩ | ⟨-, -, rfl⟩ | ⟨-, -, hl⟩
    · rfl
    · exact absurd rfl ht
    · exact absurd rfl ht
    · obtain ⟨-, herr, -⟩ := lzwPixel_frame hl
      exact herr
  | endCmd =>
    rcases execEnd_next h with ⟨-, rfl⟩ | ⟨-, rfl⟩ | ⟨-, u, hl, rfl⟩
    · rfl
    · exact absurd rfl ht
    · obtain ⟨-, herr, -⟩ := lzwFinish_frame hl
      simp [closeSession, herr]

theorem exec_pixel_mcs {v : Nat} (h : exec (.pixel v) s = .next t) : t.mcs = s.mcs := by
  rcases execPixel_next h with ⟨-, rfl⟩ | ⟨-, rfl⟩ | ⟨-, -, rfl⟩ | ⟨-, -, hl⟩
  · rfl
  · rfl
  · rfl
  · obtain ⟨-, -, hmcs, -⟩ := lzwPixel_frame hl
    exact hmcs

theorem exec_pixel_phase {v : Nat} (h : exec (.pixel v) s = .next t) (ht : t.phase ≠ .error) : t.phase = s.phase := by
  by_contra hc
  rcases exec_phase h hc with ⟨-, hi⟩ | ⟨-, -, m, hi⟩ | ⟨-, -, hi⟩ | ⟨-, hp⟩
  · cases hi
  · cases hi
  · cases hi
  · exact ht hp

theorem exec_end_dict (h : exec .endCmd s = .next t) : t.mcs = s.mcs ∧ t.next = s.next ∧ t.dict = s.dict := by
  rcases execEnd_next h with ⟨-, rfl⟩ | ⟨-, rfl⟩ | ⟨-, u, hl, rfl⟩
  · exact ⟨rfl, rfl, rfl⟩
  · exact ⟨rfl, rfl, rfl⟩
  · obtain ⟨-, -, hmcs, -, -, hdict, hnext⟩ := lzwFinish_frame hl
    simp [closeSession, hmcs, hnext, hdict]

/-! `P` after a pixel (R22). -/

theorem lzwPixel_p_ne_nil {v : Nat} (h : lzwPixel v s = .next t) : t.p ≠ [] := by
  rcases lzwPixel_next h with ⟨-, rfl⟩ | ⟨-, -, rfl⟩ | ⟨c, -, -, -, rfl⟩ <;> simp

/-! The codes a command adds to the bits held (R36, R65). -/

/-- `t` comes from `s` by writing these codes above the bits `s` held, with the bytes pending in `s` before them. -/
def Appended (s : State) (codes : List (Nat × Nat)) (t : State) : Prop :=
  Streamed s.out (pending s) (s.acc + 2 ^ s.acclen * streamValue codes) (s.acclen + bitTotal codes) t

section
variable {codes : List (Nat × Nat)}

theorem Appended.refl (hf : Framed s) (hp : Packed s) : Appended s [] s := streamed_self hf hp

theorem Appended.putCode {c w : Nat} (h : Appended s codes t) (hc : c < 2 ^ w) :
    Appended s (codes ++ [(c, w)]) (putCode c w t) := by
  have hvalue : s.acc + 2 ^ s.acclen * streamValue (codes ++ [(c, w)]) =
      s.acc + 2 ^ s.acclen * streamValue codes + c * 2 ^ (s.acclen + bitTotal codes) := by
    rw [streamValue_append, pow_add]
    ring
  unfold Appended
  rw [hvalue, bitTotal_append, ← Nat.add_assoc]
  exact h.put hc

theorem Appended.map {f : State → State} (h : Appended s codes t) (hf : OnDatapath f) : Appended s codes (f t) :=
  Streamed.congr h (hf.acc t) (hf.acclen t) (hf.sbbuf t) (hf.sbcnt t) (hf.out t)

/-- A data code (R56). -/
theorem Appended.emitData {c : Nat} (h : Appended s codes t) (ht : t.Coding) (hc : c < t.next) :
    Appended s (codes ++ [(c, t.width)]) (emitData c t) := by
  have hfits := ht.epoch.next_fits ht.width
  exact (h.putCode (by omega)).map onDatapath_widthCheck

theorem Appended.writeEoi (h : Appended s codes t) (hr : t.Ready) :
    Appended s (codes ++ if t.cfg.emitEoi then [(2 ^ t.mcs + 1, t.width)] else []) (writeEoi t) := by
  unfold Machine.writeEoi
  split
  · exact h.putCode (two_pow_succ_lt hr.epoch.mcsRange.1 hr.width)
  · rwa [List.append_nil]

end

/-! The end of a session (R62, R67, R68, R74). -/

/-- The width `END` leaves: the final width check runs where a data code is written (R56, R62). -/
def finalWidth (s : State) : Nat :=
  if s.p ≠ [] ∧ s.next = 2 ^ s.width ∧ s.width < 12 then s.width + 1 else s.width

/-- The codes `END` writes (R62). -/
def finalCodes (s : State) : List (Nat × Nat) :=
  (if s.p = [] then [] else [((s.dict.find s.p).getD 0, s.width)]) ++
    if s.cfg.emitEoi then [(2 ^ s.mcs + 1, finalWidth s)] else []

theorem finalWidth_of_empty (hp : s.p = []) : finalWidth s = s.width := if_neg fun h => h.1 hp

/-- In an open session `NEXT` is at most `2^WIDTH`, so the width check that follows a data code compares for equality
(R28 item 4, R57). -/
theorem State.Coding.emitData_width (h : s.Coding) (hp : s.p ≠ []) (c : Nat) :
    (emitData c s).width = finalWidth s := by
  have hfits := h.epoch.next_fits h.width
  have hreach : 2 ^ s.width ≤ s.next ↔ s.next = 2 ^ s.width := by omega
  rw [emitData_eq, finalWidth]
  simp only [hreach, hp, ne_eq, not_false_eq_true, true_and]

theorem finalCodes_of_empty (hp : s.p = []) :
    finalCodes s = [] ++ if s.cfg.emitEoi then [(2 ^ s.mcs + 1, s.width)] else [] := by
  rw [finalCodes, if_pos hp, finalWidth_of_empty hp]

theorem finalCodes_of_pending {c : Nat} (hp : s.p ≠ []) (hc : s.dict.find s.p = some c) :
    finalCodes s = [(c, s.width)] ++ if s.cfg.emitEoi then [(2 ^ s.mcs + 1, finalWidth s)] else [] := by
  rw [finalCodes, if_neg hp, hc]
  rfl

/-- At most two codes of 12 bits. -/
theorem bitTotal_finalCodes_le (hw : s.width ≤ 12) : bitTotal (finalCodes s) ≤ 24 := by
  have hfinal : finalWidth s ≤ 12 := by
    unfold finalWidth
    split <;> omega
  unfold finalCodes
  split <;> split
  all_goals
    simp only [List.nil_append, List.cons_append, bitTotal]
    omega

theorem State.Coding.lzwFinish_appended (h : s.Coding) (ht : lzwFinish s = .next t) :
    Appended s (finalCodes s) t := by
  have hrefl := Appended.refl h.framed h.packed
  rcases lzwFinish_next ht with ⟨hp, rfl⟩ | ⟨c, hp, hc, rfl⟩
  · rw [finalCodes_of_empty hp]
    exact (hrefl.writeEoi h.ready).map (onDatapath_setP [])
  · have hlt := h.epoch.find_lt hc
    have heoi := (hrefl.emitData h hlt).writeEoi (h.emitData_ready hlt)
    rw [emitData_cfg, emitData_mcs, h.emitData_width hp] at heoi
    rw [finalCodes_of_pending hp hc]
    exact heoi.map (onDatapath_setP [])

theorem State.Coding.lzwFinish_width (h : s.Coding) (ht : lzwFinish s = .next t) : t.width = finalWidth s := by
  rcases lzwFinish_next ht with ⟨hp, rfl⟩ | ⟨c, hp, hc, rfl⟩
  · rw [State.setP_width, writeEoi_width, finalWidth_of_empty hp]
  · rw [State.setP_width, writeEoi_width, h.emitData_width hp]

/-- Fewer than 255 raw bytes make one sub-block, or none (R68, R70). -/
theorem subBlocks_of_lt {F : List Byte} (h : F.length < 255) :
    subBlocks F = if F = [] then [] else BitVec.ofNat 8 F.length :: F := by
  rw [subBlocks_eq, Nat.div_eq_of_lt h]
  rfl

theorem flushFrame_out (hf : Framed s) : (flushFrame s).out = s.out ++
    (if pending s = [] then [] else BitVec.ofNat 8 (pending s).length :: pending s) ++ [0x00#8] := by
  rw [flushFrame_sliced (sliced_self hf), subBlocks_of_lt (by rw [pending_length hf]; exact Nat.lt_succ_of_le hf.1)]

/-- Where the session closes, the bits held leave, padded to whole bytes, and nothing stays pending (R67, R68). -/
theorem Appended.closeSession_out {codes : List (Nat × Nat)} (h : Appended s codes t) (hf : Framed s) (hp : Packed s)
    (hbits : bitTotal codes ≤ 24) :
    let raw := lowBytes ((s.acclen + bitTotal codes + 7) / 8) (s.acc + 2 ^ s.acclen * streamValue codes)
    let held := remaining (pending s) raw
    (closeSession t).out = s.out ++ completed (pending s) raw ++
      (if held = [] then [] else BitVec.ofNat 8 held.length :: held) ++ [0x00#8] := by
  have hlen := hp.1
  obtain ⟨hpending, hout⟩ := (Streamed.flush h).joined (by rw [pending_length hf]; exact hf.1)
    (by rw [lowBytes_length]; omega)
  dsimp only
  rw [← hpending, ← hout]
  exact flushFrame_out (Streamed.flush h).1

theorem closeSession_eq (s : State) : closeSession s =
    { s with phase := .idle, acc := 0, acclen := 0, sbcnt := 0, sbbuf := (closeSession s).sbbuf,
             out := (closeSession s).out } := by
  ext1 <;> simp [closeSession]

/-! Runs (R40, R77). -/

/-- As many steps as there are inputs take all of them: by induction over the inputs. -/
theorem State.Inv.run_inputs {ins : List Input} (h : s.Inv) (hi : s.inputs = ins) :
    ∃ t, Host.Core.run Sys2Proof.core ins.length s = .next t ∧ t.inputs = [] ∧ t.Inv := by
  induction ins generalizing s with
  | nil => exact ⟨s, rfl, hi, h⟩
  | cons i rest ih =>
    obtain ⟨u, hu⟩ := h.step_completes
    obtain ⟨-, htail, -⟩ := stepOnlyAppendsToTheOutput s u hu
    rw [hi] at htail
    rw [List.length_cons, core_run_succ _ hu]
    exact ih (step_inv h hu) htail

/-! The obligations. -/

/-- Settles O18: of the opening `CLEAR`, no byte is full for `m` below 7, and one for `m = 7` and `m = 8`. -/
theorem startOpensASession : Obligations.StartOpensASession := by
  intro s m hi h2 h8
  have hbits : (headerSent m s).acclen + (m + 1) = m + 1 := Nat.zero_add _
  rw [exec_start_of_legal hi ⟨h2, h8⟩, openSession_eq]
  obtain hlt | rfl | rfl : m < 7 ∨ m = 7 ∨ m = 8 := by omega
  · have hne7 : m ≠ 7 := by omega
    have hne8 : m ≠ 8 := by omega
    rw [putCode_of_no_byte (by omega), holdCode_headerSent]
    simp only [hne7, hne8, or_self, if_false]
    rfl
  · rw [putCode_of_one_byte (by omega) (by omega), holdCode_headerSent, shiftOut_eq (Nat.zero_lt_succ _)]
    simp [State.setPhase, accByte, Dict.singles]
  · rw [putCode_of_one_byte (by omega) (by omega), holdCode_headerSent, shiftOut_eq (Nat.zero_lt_succ _)]
    simp [State.setPhase, accByte, Dict.singles]

/-- Settles O22: `P` becomes non-empty, and the invariant after the pixel makes it a key. -/
theorem legalPixelsComplete : Obligations.LegalPixelsComplete := by
  intro s v h ha hv
  obtain ⟨t, ht⟩ := h.lzwPixel_completes v
  obtain ⟨hphase, herr, hmcs, hinputs, hcfg⟩ := lzwPixel_frame ht
  have hp := lzwPixel_p_ne_nil ht
  exact ⟨t, (exec_pixel_of_legal ha hv).trans ht, hphase.trans ha, herr, hmcs, hp,
    (lzwPixel_inv h ha hv ht).prefixKey.resolve_left hp, hinputs, hcfg⟩

/-- Settles O23: `LzwFinish` appends the final codes to the bits held, and everything leaves where the session closes. -/
theorem endWritesTheRestAndTheTerminator : Obligations.EndWritesTheRestAndTheTerminator := by
  intro s h ha
  have hs := h.coding ha
  obtain ⟨u, hu⟩ := h.lzwFinish_completes
  obtain ⟨-, herr, hmcs, hinputs, hcfg, hdict, hnext⟩ := lzwFinish_frame hu
  have hp := (hs.lzwFinish_ready hu).2
  have hw := hs.lzwFinish_width hu
  have hx : exec .endCmd s = .next (closeSession u) := by rw [exec_end_of_active ha, hu]; rfl
  refine ⟨closeSession u, hx, (hs.lzwFinish_appended hu).closeSession_out hs.framed hs.packed
    (bitTotal_finalCodes_le hs.epoch.widthRange.2), ?_⟩
  conv_lhs => rw [closeSession_eq, herr, hmcs, hinputs, hcfg, hdict, hnext, hp, hw]
  rfl

/-- Settles O24, by the outcomes of each command. -/
theorem commandFrames : Obligations.CommandFrames := by
  refine ⟨fun s t h => ?_, fun s t h => ?_, fun s t m h => ?_, fun s t v h => ?_, fun s t h => ?_⟩
  · cases h; rfl
  · cases h; exact ⟨rfl, rfl, rfl, rfl⟩
  · obtain ⟨hinputs, hcfg⟩ := exec_frame h
    exact ⟨hinputs, hcfg, exec_err h nofun⟩
  · obtain ⟨hinputs, hcfg⟩ := exec_frame h
    exact ⟨exec_pixel_mcs h, hinputs, hcfg, fun hp => ⟨exec_err h nofun hp, exec_pixel_phase h hp⟩⟩
  · obtain ⟨hinputs, hcfg⟩ := exec_frame h
    obtain ⟨hmcs, hnext, hdict⟩ := exec_end_dict h
    exact ⟨hmcs, hnext, hdict, hinputs, hcfg, exec_err h nofun⟩

/-- Settles O32: each step takes one input, completes and keeps the invariant. -/
theorem everyInputSequenceRunsToItsEnd : Obligations.EveryInputSequenceRunsToItsEnd :=
  fun _ ins h => (h.setInputs (ins := ins)).run_inputs rfl

end Sys2Proof.Machine

/-! The family of 43_system_commands.md: which words are `NOP` or illegal, and what `NOP` and the two resets do. -/

namespace Sys2Proof

/-! The words of a command without operand, and the illegal words (R48, R49). -/

theorem decode_eq_ok_iff {w : CmdWord} {i : Instr} (h : i.wellFormed = true) : decode w = .ok i ↔ w = encode i :=
  ⟨fun hd => (encode_of_decode hd).symm, fun hw => hw ▸ decode_encode h⟩

/-- The decoder refuses every word that R83 counts as illegal. -/
theorem decode_error_of_illegalNumber {w : CmdWord} (h : Machine.illegalNumber w) : ∃ e, decode w = .error e := by
  unfold Machine.illegalNumber at h
  rcases decode_cases w with ⟨hn, -⟩ | ⟨hn, -⟩ | ⟨hn, -⟩ | ⟨hn, -⟩ | ⟨hn, -⟩ | ⟨-, he⟩
  case inr.inr.inr.inr.inr => exact he
  all_goals omega

end Sys2Proof

namespace Sys2Proof.Machine

/-! `NOP` and the resets, one equation each (R79, R80, R95). -/

theorem exec_nop (s : State) : exec .nop s = .next s := rfl

theorem exec_reset (s : State) : exec .reset s = .next (resetState s) := rfl

theorem runInput_hardwareReset (s : State) : runInput .hardwareReset s = exec .reset s := rfl

theorem runInput_resetWord (s : State) : runInput (.word 0x0400#16) s = exec .reset s :=
  runWord_of_ok ((decode_eq_ok_iff (i := .reset) rfl).2 rfl)

/-! The obligations. -/

/-- Settles O7: a step with either reset as its oldest input runs `RESET` on the state with that input taken. -/
theorem bothResetsDoTheSame : Obligations.BothResetsDoTheSame := by
  intro s rest
  have hinput : step { s with inputs := .hardwareReset :: rest } = exec .reset { s with inputs := rest } :=
    (step_of_input rfl).trans (runInput_hardwareReset _)
  have hword : step { s with inputs := .word 0x0400#16 :: rest } = exec .reset { s with inputs := rest } :=
    (step_of_input rfl).trans (runInput_resetWord _)
  exact ⟨hword.trans hinput.symm, exec_reset s, hinput⟩

/-- Settles O9: `NOP` has the one word `encode .nop`, and another word with `OP` 0 has a nonzero `ARG`. -/
theorem nopHasNoEffect : Obligations.NopHasNoEffect := by
  refine ⟨exec_nop, fun w => decode_eq_ok_iff rfl, fun w hop hne => ?_⟩
  have hne0 : w.toNat ≠ 0 := fun h0 => hne (BitVec.eq_of_toNat_eq h0)
  exact decode_error_of_illegalNumber (.inr ⟨.inl hop, by omega⟩)

end Sys2Proof.Machine

/-! The family of 60_exceptions.md: the four errors, the order of the checks, and `ERROR` as a phase. -/

namespace Sys2Proof

/-- Exactly the words that R83 counts decode as illegal. -/
theorem decode_error_iff {w : CmdWord} : (∃ e, decode w = .error e) ↔ Machine.illegalNumber w := by
  refine ⟨fun ⟨e, he⟩ => ?_, decode_error_of_illegalNumber⟩
  rcases decode_cases w with ⟨-, hd⟩ | ⟨-, hd⟩ | ⟨-, hd⟩ | ⟨-, hd⟩ | ⟨-, hd⟩ | ⟨hn, -⟩
  case inr.inr.inr.inr.inr => exact hn
  all_goals cases hd.symm.trans he

end Sys2Proof

namespace Sys2Proof.Machine

variable {s t : State} {w : CmdWord} {e : ErrCode}

/-! What raises each error (R83 to R86). -/

theorem Phase.ne_error_iff {p : Phase} : p ≠ .error ↔ p = .idle ∨ p = .active := by cases p <;> decide

theorem execIllegal_of_error (hp : s.phase = .error) : execIllegal s = .next s := by
  simp only [execIllegal, hp]

theorem execIllegal_of_ne_error (hp : s.phase ≠ .error) : execIllegal s = .next (raiseError .illegalCmd s) := by
  rcases Phase.ne_error_iff.1 hp with hi | ha
  · simp only [execIllegal, hi]
  · simp only [execIllegal, ha]

theorem exec_start_of_active (m : Nat) (ha : s.phase = .active) :
    exec (.start m) s = .next (raiseError .sequence s) := by
  change execStart m s = _
  simp only [execStart, ha]

theorem exec_pixel_of_idle (v : Nat) (hi : s.phase = .idle) :
    exec (.pixel v) s = .next (raiseError .sequence s) := by
  change execPixel v s = _
  simp only [execPixel, hi]

theorem exec_end_of_idle (hi : s.phase = .idle) : exec .endCmd s = .next (raiseError .sequence s) := by
  change execEnd s = _
  simp only [execEnd, hi]

theorem runWord_of_illegalNumber (hn : illegalNumber w) : runWord w s = execIllegal s := by
  obtain ⟨e, he⟩ := decode_error_of_illegalNumber hn
  exact runWord_of_error he

/-! The order of the checks, command by command (R87). -/

theorem firstError_of_illegalNumber (s : State) (hn : illegalNumber w) : firstError w s = some .illegalCmd := if_pos hn

theorem firstError_nop (s : State) (hn : w.toNat = 0) : firstError w s = none := by simp [firstError, hn]

theorem firstError_reset (s : State) (hn : w.toNat = 1024) : firstError w s = none := by simp [firstError, hn]

theorem firstError_start (s : State) (hn : w.toNat / 256 = 1) : firstError w s =
    if s.phase = .active then some .sequence
    else if w.toNat % 256 < 2 ∨ 8 < w.toNat % 256 then some .badMcs else none := by
  simp [firstError, hn]

theorem firstError_pixel (s : State) (hn : w.toNat / 256 = 2) : firstError w s =
    if s.phase = .idle then some .sequence
    else if 2 ^ s.mcs ≤ w.toNat % 256 then some .pixelRange else none := by
  simp [firstError, hn]

theorem firstError_end (s : State) (hn : w.toNat = 768) : firstError w s =
    if s.phase = .idle then some .sequence else none := by
  simp [firstError, hn]

/-- What the checks leave of a command outside `ERROR`: the error found is raised, by itself (R88); where none is found,
a next state is not in `ERROR`. -/
def Decides (found : Option ErrCode) (s : State) (o : Host.Outcome State Fault Refusal) : Prop :=
  match found with
  | some e => e ≠ .noError ∧ o = .next (raiseError e s)
  | none => ∀ t, o = .next t → t.phase ≠ .error

theorem decides_some {o : Host.Outcome State Fault Refusal} (he : e ≠ .noError) (ho : o = .next (raiseError e s)) :
    Decides (some e) s o := ⟨he, ho⟩

theorem decides_start (m : Nat) (hp : s.phase ≠ .error) :
    Decides (if s.phase = .active then some .sequence else if m < 2 ∨ 8 < m then some .badMcs else none) s
      (exec (.start m) s) := by
  split
  · exact decides_some nofun (exec_start_of_active m ‹_›)
  have hi : s.phase = .idle := (Phase.ne_error_iff.1 hp).resolve_right ‹_›
  split
  · exact decides_some nofun (exec_start_of_illegal hi (by omega))
  · intro t ht
    cases (exec_start_of_legal hi (by omega)).symm.trans ht
    nofun

theorem decides_pixel (v : Nat) (hp : s.phase ≠ .error) :
    Decides (if s.phase = .idle then some .sequence else if 2 ^ s.mcs ≤ v then some .pixelRange else none) s
      (exec (.pixel v) s) := by
  split
  · exact decides_some nofun (exec_pixel_of_idle v ‹_›)
  have ha : s.phase = .active := (Phase.ne_error_iff.1 hp).resolve_left ‹_›
  split
  · exact decides_some nofun (exec_pixel_of_illegal ha (by omega))
  · intro t ht
    obtain ⟨hphase, -⟩ := lzwPixel_frame ((exec_pixel_of_legal ha (by omega)).symm.trans ht)
    rwa [hphase]

theorem decides_end (hp : s.phase ≠ .error) :
    Decides (if s.phase = .idle then some .sequence else none) s (exec .endCmd s) := by
  split
  · exact decides_some nofun (exec_end_of_idle ‹_›)
  · intro t ht
    rcases execEnd_next ht with ⟨hs, -⟩ | ⟨hs, -⟩ | ⟨-, u, -, rfl⟩
    · contradiction
    · contradiction
    · nofun

/-- Outside `ERROR`, the first check that applies decides the outcome of every word (R87). -/
theorem firstError_decides (w : CmdWord) (hp : s.phase ≠ .error) : Decides (firstError w s) s (runWord w s) := by
  rcases decode_cases w with ⟨hn, hd⟩ | ⟨hn, hd⟩ | ⟨hn, hd⟩ | ⟨hn, hd⟩ | ⟨hn, hd⟩ | ⟨hn, -⟩
  · rw [firstError_nop s hn, runWord_of_ok hd]
    intro t ht
    cases ht; exact hp
  · rw [firstError_start s hn, runWord_of_ok hd]
    exact decides_start _ hp
  · rw [firstError_pixel s hn, runWord_of_ok hd]
    exact decides_pixel _ hp
  · rw [firstError_end s hn, runWord_of_ok hd]
    exact decides_end hp
  · rw [firstError_reset s hn, runWord_of_ok hd]
    intro t ht
    cases ht; nofun
  · rw [firstError_of_illegalNumber s hn, runWord_of_illegalNumber hn]
    exact decides_some nofun (execIllegal_of_ne_error hp)

theorem runWord_of_firstError (hp : s.phase ≠ .error) (he : firstError w s = some e) :
    e ≠ .noError ∧ runWord w s = .next (raiseError e s) := by
  have h := firstError_decides w hp
  rwa [he] at h

theorem phase_ne_error_of_firstError_none (hp : s.phase ≠ .error) (he : firstError w s = none)
    (ht : runWord w s = .next t) : t.phase ≠ .error := by
  have h := firstError_decides w hp
  rw [he] at h
  exact h t ht

theorem runWord_inv (h : s.Inv) (ht : runWord w s = .next t) : t.Inv := by
  unfold runWord at ht
  split at ht
  · exact exec_inv h ht
  · exact execIllegal_inv h ht

theorem ErrCode.one_le_code (he : e ≠ .noError) : 1 ≤ e.code := by
  cases e
  case noError => contradiction
  all_goals decide

/-! In `ERROR` (R89, R90). -/

/-- In `ERROR` every word but that of `RESET` is ignored (R89). -/
theorem runWord_of_error_phase (hp : s.phase = .error) (hw : w ≠ 0x0400#16) : runWord w s = .next s := by
  cases hd : decode w with
  | ok i =>
    rw [runWord_of_ok hd]
    refine exec_of_error hp ?_
    rintro rfl
    exact hw (encode_of_decode hd).symm
  | error e =>
    rw [runWord_of_error hd]
    exact execIllegal_of_error hp

theorem step_of_error_phase (hp : s.phase = .error) (hr : s.inputs.head? ≠ some .hardwareReset)
    (hw : s.inputs.head? ≠ some (.word 0x0400#16)) : step s = .next (s.setInputs s.inputs.tail) := by
  cases hi : s.inputs with
  | nil =>
    rw [step_of_no_input hi, List.tail_nil, ← hi]
    rfl
  | cons i rest =>
    rw [hi] at hr hw
    rw [step_of_input hi]
    cases i with
    | hardwareReset => exact absurd rfl hr
    | word w => exact runWord_of_error_phase hp fun h => hw (by rw [h]; rfl)

/-- Both resets lead to the reset state, from any phase (R90, R95). -/
theorem step_of_reset (h : s.inputs.head? = some .hardwareReset ∨ s.inputs.head? = some (.word 0x0400#16)) :
    step s = .next (resetState (s.setInputs s.inputs.tail)) := by
  obtain hi | hi := h.imp List.eq_cons_of_mem_head? List.eq_cons_of_mem_head?
  · rw [step_of_input hi, runInput_hardwareReset, exec_reset]
  · rw [step_of_input hi, runInput_resetWord, exec_reset]

/-! The obligations. -/

/-- Settles O14: in `ERROR` by `runWord_of_error_phase`, elsewhere by `firstError_decides`; the invariant gives that the
command completes and that `ERR` is 0 after it. -/
theorem errorChecksRunInOrder : Obligations.ErrorChecksRunInOrder := by
  refine ⟨fun w s hp hw => runWord_of_error_phase hp hw,
    fun w s e hp he => (runWord_of_firstError hp he).2, fun w s h hp he => ?_⟩
  obtain ⟨t, ht⟩ := h.runWord_completes w
  have hphase := phase_ne_error_of_firstError_none hp he ht
  exact ⟨t, ht, hphase, (runWord_inv h ht).err_of_ne_error hphase⟩

/-- Settles O15: some check applied, since the word leads to `ERROR`, and it raised its error by itself. -/
theorem errorsArePrecise : Obligations.ErrorsArePrecise := by
  intro w s t hp ht hphase
  cases he : firstError w s with
  | none => exact absurd hphase (phase_ne_error_of_firstError_none hp he ht)
  | some e =>
    obtain ⟨hne, hx⟩ := runWord_of_firstError hp he
    cases hx.symm.trans ht
    exact ⟨e, ErrCode.one_le_code hne, e.code_le, rfl⟩

/-- Settles O16, by what the oldest input is. -/
theorem onlyResetLeavesError : Obligations.OnlyResetLeavesError :=
  ⟨fun _ => rfl, fun _ hp => ⟨step_of_error_phase hp, step_of_reset⟩⟩

/-- Settles O10: the words of R83 are those the decoder refuses, and each is executed as an illegal word. -/
theorem illegalWordsRaiseIllegalCmd : Obligations.IllegalWordsRaiseIllegalCmd := by
  refine ⟨rfl, fun w => decode_error_iff, fun w s hn => ?_⟩
  rw [runWord_of_illegalNumber hn]
  exact ⟨fun hp => execIllegal_of_ne_error (Phase.ne_error_iff.2 hp), execIllegal_of_error⟩

/-- Settles O11, by the check of `m` in `IDLE`. -/
theorem startOutsideTheRangeRaisesBadMcs : Obligations.StartOutsideTheRangeRaisesBadMcs :=
  ⟨rfl, fun _ _ hi hm => exec_start_of_illegal hi (by omega)⟩

/-- Settles O12, by the check of `v` in `ACTIVE`. -/
theorem pixelOutsideTheAlphabetRaisesPixelRange : Obligations.PixelOutsideTheAlphabetRaisesPixelRange :=
  ⟨rfl, fun _ _ ha hv => exec_pixel_of_illegal ha (Nat.not_lt.2 hv)⟩

/-- Settles O13: in each case the phase alone decides. -/
theorem wrongPhaseRaisesSequence : Obligations.WrongPhaseRaisesSequence :=
  ⟨rfl, fun _ m ha => exec_start_of_active m ha, fun _ v hi => exec_pixel_of_idle v hi,
    fun _ hi => exec_end_of_idle hi⟩

end Sys2Proof.Machine

/-! The family of 70_reset_and_hazards.md: the output while a session is open. -/

namespace Sys2Proof.Machine

variable {s t : State} {base : List Byte} {codes : List (Nat × Nat)}

/-- What has left of the raw bytes of an open session is its full chunks of 255, each after its length byte (R66). -/
theorem Sliced.out_full_subBlocks {F : List Byte} (h : Sliced base F s) :
    ∃ blocks : List (List Byte), (∀ b ∈ blocks, b.length = 255) ∧
      s.out = base ++ blocks.flatMap fun b => 0xFF#8 :: b := by
  obtain ⟨-, -, hout⟩ := h
  refine ⟨(List.range (F.length / 255)).map fun j => (F.drop (255 * j)).take 255, fun b hb => ?_, ?_⟩
  · obtain ⟨j, hj, rfl⟩ := List.mem_map.1 hb
    have hlt := List.mem_range.1 hj
    rw [List.length_take, List.length_drop]
    omega
  · rw [hout, List.flatMap_map]

/-- An error leaves what has been written (R88). -/
theorem Written.raiseError (h : Written base codes s) (e : ErrCode) : Written base codes (raiseError e s) :=
  Streamed.congr h rfl rfl rfl rfl rfl

theorem State.Epoch.exists_epochCount (h : s.Epoch) : ∃ k, EpochCount k s :=
  (Nat.exists_eq_add_of_le h.nextRange.1).imp fun _ hk => hk

/-- `PIXEL` only ever writes further codes, in every phase and for every operand (R73). -/
theorem Written.exec_pixel {v : Byte} (h : Written base codes s) (hs : s.Inv)
    (ht : exec (.pixel v.toNat) s = .next t) : ∃ codes', Written base codes' t := by
  rcases execPixel_next ht with ⟨-, rfl⟩ | ⟨-, rfl⟩ | ⟨-, -, rfl⟩ | ⟨ha, -, hl⟩
  · exact ⟨codes, h⟩
  · exact ⟨codes, h.raiseError .sequence⟩
  · exact ⟨codes, h.raiseError .pixelRange⟩
  · have hcoding := hs.coding ha
    obtain ⟨k, hk⟩ := hcoding.epoch.exists_epochCount
    obtain ⟨new, -, hw, -⟩ := h.lzwPixel hk hcoding hl
    exact ⟨codes ++ new, hw⟩

/-- By induction over the pixels. -/
theorem Written.runInstrs_pixels {pixels : List Byte} (h : Written base codes s) (hs : s.Inv)
    (ht : Machine.runInstrs (pixels.map fun v => .pixel v.toNat) s = .next t) : ∃ codes', Written base codes' t := by
  induction pixels generalizing s codes with
  | nil =>
    cases ht
    exact ⟨codes, h⟩
  | cons v rest ih =>
    obtain ⟨u, hu⟩ := hs.exec_completes (.pixel v.toNat)
    obtain ⟨codes', hw⟩ := h.exec_pixel hs hu
    exact ih hw (exec_inv hs hu) ((runInstrs_cons _ hu).symm.trans ht)

/-- Settles O40: `START` sends the header and begins a stream of codes, and pixels only continue it, so no more than the
stream's full sub-blocks have left. -/
theorem openSessionOutputIsFullSubBlocks : Obligations.OpenSessionOutputIsFullSubBlocks := by
  intro s t m pixels hs hi h2 h8 ht
  rw [runInstrs_cons _ (exec_start_of_legal hi ⟨h2, h8⟩)] at ht
  obtain ⟨codes, hw⟩ := (openSession_written hs.framer.2).runInstrs_pixels (openSession_inv hs hi ⟨h2, h8⟩) ht
  obtain ⟨blocks, hlen, hout⟩ := hw.sl.out_full_subBlocks
  exact ⟨blocks, hlen, by rw [hout, List.append_assoc, List.singleton_append]⟩

end Sys2Proof.Machine
